-- ==== Sys2Proof/Word.lean ====
section
/-! DEFINITION. The word of the machine, its all-ones value, and the command packet as the three words the host hands
over together (spec/00_scope.md R3, R5, R6; spec/30_encoding.md R50). -/

namespace Sys2Proof

/-- A `u64`: one word of the word memory, a command word, a value operand or a result (R3, R6). -/
abbrev Word := BitVec 64

/-- `ONES` of R6, the source's `allOnes`. -/
def ones : Word := BitVec.allOnes 64

/-- One command packet: the command words `CW0`, `CW1`, `CW2`, handed to the engine together (R50). -/
structure Packet where
  cw0 : Word
  cw1 : Word
  cw2 : Word
  deriving DecidableEq, Repr

end Sys2Proof
end

