-- ==== Sys2Proof/Config.lean ====
section
/-! DEFINITION. What an instance of the engine fixes (spec/00_scope.md R4) and the one free value of the model: the
contents of the word memory after a reset (spec/10_state.md R19, spec/93_implementation_defined.md U5). -/

namespace Sys2Proof.Config

/-- `WM[w]` after the reset number `n`: "an arbitrary function `w -> u64` that every claim quantifies over; it is not
zero and not fixed" (R19). A FREE VALUE: there is no body, so nothing can evaluate it (log entry 1). -/
opaque powerUpWord : Nat → Nat → Word

/-- The largest `NWORDS` of R4: `64 * NWORDS` then fits a non-negative signed 32-bit integer. -/
def maxWords : Nat := 2 ^ 25 - 1

/-- `NWORDS` of the instance that `State.reset` describes: the size every example and vector of the spec takes
(DESIGN CHOICE, log entry 2; R4 leaves `NWORDS` open, and statements quantify over it). -/
def resetWords : Nat := 4

end Sys2Proof.Config
end

