-- ==== Sys2Proof/Syntax.lean ====
section
/-! DEFINITION. The syntax of the engine's commands: one constructor per row of spec/opcode_table.json
(spec/30_encoding.md R53, R59). -/

namespace Sys2Proof

/-- A command with the operands it uses (R53, column "uses"; R56 ignores the rest). `d` is the target descriptor and
`r` the source descriptor (the packet's field `s`); `a` and `e` are the integers `A` and `B` of R52, already read as
two's complement; `len` is the 7-bit length; `b` the boolean operand; `v` the `u64` operand `V`. -/
inductive Instr where
  /-- `NOP` (R70). -/
  | nop
  /-- `DSET Dd, start, finish, m` (R71). -/
  | dset (d : Fin 16) (a e : Int) (b : Bool)
  /-- `DVIEW Dd, Ds, from, to` (R72). -/
  | dview (d r : Fin 16) (a e : Int)
  /-- `DIMM Dd, Ds` (R73). -/
  | dimm (d r : Fin 16)
  /-- `SIZE Dd` (R74). -/
  | size (d : Fin 16)
  /-- `MRD w` (R75). -/
  | mrd (a : Int)
  /-- `MWR w, V` (R76). -/
  | mwr (a : Int) (v : Word)
  /-- `GETBIT Dd, i` (R83). -/
  | getbit (d : Fin 16) (a : Int)
  /-- `GETBITS Dd, pos, len` (R84). -/
  | getbits (d : Fin 16) (a : Int) (len : Nat)
  /-- `RSET Dd, from, to` (R94). -/
  | rset (d : Fin 16) (a e : Int)
  /-- `RCLR Dd, from, to` (R95). -/
  | rclr (d : Fin 16) (a e : Int)
  /-- `RXOR Dd, from, to` (R96). -/
  | rxor (d : Fin 16) (a e : Int)
  /-- `WBIT.SET Dd, i, b` (R104). -/
  | wbitSet (d : Fin 16) (a : Int) (b : Bool)
  /-- `WBIT.AND Dd, i, b` (R105). -/
  | wbitAnd (d : Fin 16) (a : Int) (b : Bool)
  /-- `WBIT.OR Dd, i, b` (R106). -/
  | wbitOr (d : Fin 16) (a : Int) (b : Bool)
  /-- `WBIT.XOR Dd, i, b` (R107). -/
  | wbitXor (d : Fin 16) (a : Int) (b : Bool)
  /-- `WBITS.SET Dd, pos, len, V` (R108). -/
  | wbitsSet (d : Fin 16) (a : Int) (len : Nat) (v : Word)
  /-- `WBITS.AND Dd, pos, len, V` (R109). -/
  | wbitsAnd (d : Fin 16) (a : Int) (len : Nat) (v : Word)
  /-- `WBITS.OR Dd, pos, len, V` (R110). -/
  | wbitsOr (d : Fin 16) (a : Int) (len : Nat) (v : Word)
  /-- `WBITS.XOR Dd, pos, len, V` (R111). -/
  | wbitsXor (d : Fin 16) (a : Int) (len : Nat) (v : Word)
  /-- `WFILL.SET Dd, b` (R121). -/
  | wfillSet (d : Fin 16) (b : Bool)
  /-- `WFILL.AND Dd, b` (R122). -/
  | wfillAnd (d : Fin 16) (b : Bool)
  /-- `WFILL.OR Dd, b` (R123). -/
  | wfillOr (d : Fin 16) (b : Bool)
  /-- `WFILL.XOR Dd, b` (R124). -/
  | wfillXor (d : Fin 16) (b : Bool)
  /-- `WRANGE.SET Dd, from, to, b` (R125). -/
  | wrangeSet (d : Fin 16) (a e : Int) (b : Bool)
  /-- `WRANGE.AND Dd, from, to, b` (R126). -/
  | wrangeAnd (d : Fin 16) (a e : Int) (b : Bool)
  /-- `WRANGE.OR Dd, from, to, b` (R127). -/
  | wrangeOr (d : Fin 16) (a e : Int) (b : Bool)
  /-- `WRANGE.XOR Dd, from, to, b` (R128). -/
  | wrangeXor (d : Fin 16) (a e : Int) (b : Bool)
  /-- `WSTORE.SET Dd, Ds, pos` (R132). -/
  | wstoreSet (d r : Fin 16) (a : Int)
  /-- `WSTORE.AND Dd, Ds, pos` (R133). -/
  | wstoreAnd (d r : Fin 16) (a : Int)
  /-- `WSTORE.OR Dd, Ds, pos` (R134). -/
  | wstoreOr (d r : Fin 16) (a : Int)
  /-- `WSTORE.XOR Dd, Ds, pos` (R135). -/
  | wstoreXor (d r : Fin 16) (a : Int)
  deriving DecidableEq, Repr

end Sys2Proof
end

