-- ==== Sys2Proof/WellFormed.lean ====
section
/-! DEFINITION. Which commands a packet can carry: an integer operand must fit its 32-bit two's complement field and a
length its 7-bit field (spec/30_encoding.md R51, R52). Legality of the values is no matter of form: a well-formed
command may still raise InvalidArgument. -/

namespace Sys2Proof

/-- The integer fits the 32-bit two's complement field `A` or `B` (R51). -/
def fitsI32 (a : Int) : Bool := decide (-2147483648 ≤ a) && decide (a ≤ 2147483647)

/-- The length fits the 7-bit field `len` (R51: "0 to 127"). -/
def fitsLen (n : Nat) : Bool := decide (n < 128)

/-- Every operand fits its field. -/
def Instr.wellFormed : Instr → Bool
  | .nop => true
  | .dset _ a e _ => fitsI32 a && fitsI32 e
  | .dview _ _ a e => fitsI32 a && fitsI32 e
  | .dimm _ _ => true
  | .size _ => true
  | .mrd a => fitsI32 a
  | .mwr a _ => fitsI32 a
  | .getbit _ a => fitsI32 a
  | .getbits _ a len => fitsI32 a && fitsLen len
  | .rset _ a e => fitsI32 a && fitsI32 e
  | .rclr _ a e => fitsI32 a && fitsI32 e
  | .rxor _ a e => fitsI32 a && fitsI32 e
  | .wbitSet _ a _ => fitsI32 a
  | .wbitAnd _ a _ => fitsI32 a
  | .wbitOr _ a _ => fitsI32 a
  | .wbitXor _ a _ => fitsI32 a
  | .wbitsSet _ a len _ => fitsI32 a && fitsLen len
  | .wbitsAnd _ a len _ => fitsI32 a && fitsLen len
  | .wbitsOr _ a len _ => fitsI32 a && fitsLen len
  | .wbitsXor _ a len _ => fitsI32 a && fitsLen len
  | .wfillSet _ _ => true
  | .wfillAnd _ _ => true
  | .wfillOr _ _ => true
  | .wfillXor _ _ => true
  | .wrangeSet _ a e _ => fitsI32 a && fitsI32 e
  | .wrangeAnd _ a e _ => fitsI32 a && fitsI32 e
  | .wrangeOr _ a e _ => fitsI32 a && fitsI32 e
  | .wrangeXor _ a e _ => fitsI32 a && fitsI32 e
  | .wstoreSet _ _ a => fitsI32 a
  | .wstoreAnd _ _ a => fitsI32 a
  | .wstoreOr _ _ a => fitsI32 a
  | .wstoreXor _ _ a => fitsI32 a

end Sys2Proof
end

