-- ==== Sys2Proof/Decode.lean ====
section
/-! DEFINITION. The one packet format, the decoder (total on all packets, refusing by name) and the encoder
(spec/30_encoding.md R50 to R59). -/

namespace Sys2Proof

/-! ## The packet as one 192-bit value (R50) -/

/-- The packet whose 192-bit value is `x`: `CW0 = P[63:0]`, `CW1 = P[127:64]`, `CW2 = P[191:128]` (R50). -/
def packetOfBits (x : BitVec 192) : Packet :=
  ⟨x.extractLsb' 0 64, x.extractLsb' 64 64, x.extractLsb' 128 64⟩

/-- The packet as one 192-bit value (R50). -/
def packetBits (p : Packet) : BitVec 192 := p.cw2 ++ p.cw1 ++ p.cw0

/-! ## The fields (R51, R52) -/

/-- `opcode = CW0[7:0]`. -/
def opcodeOf (p : Packet) : BitVec 8 := p.cw0.extractLsb' 0 8
/-- `d = zext_4(CW0[11:8])`. -/
def dOf (p : Packet) : Fin 16 := (p.cw0.extractLsb' 8 4).toFin
/-- `s = zext_4(CW0[15:12])`. -/
def sOf (p : Packet) : Fin 16 := (p.cw0.extractLsb' 12 4).toFin
/-- `len = zext_7(CW0[22:16])`. -/
def lenOf (p : Packet) : Nat := (p.cw0.extractLsb' 16 7).toNat
/-- `b = CW0[23]`. -/
def bOf (p : Packet) : Bool := p.cw0.getLsbD 23
/-- `rsv = CW0[63:24]`, which must be zero (R55). -/
def rsvOf (p : Packet) : BitVec 40 := p.cw0.extractLsb' 24 40
/-- `A = sext_32(CW1[31:0])`. -/
def aOf (p : Packet) : Int := (p.cw1.extractLsb' 0 32).toInt
/-- `B = sext_32(CW1[63:32])`. -/
def eOf (p : Packet) : Int := (p.cw1.extractLsb' 32 32).toInt
/-- `V = CW2`. -/
def vOf (p : Packet) : Word := p.cw2

/-! ## Decode (R53, R55) -/

/-- Why a packet is no command (R55). Either way the engine raises InvalidArgument. -/
inductive DecodeError where
  /-- `CW0[63:24]` is not zero. -/
  | reservedBits
  /-- The opcode is not in R53. -/
  | noSuchCommand (opcode : BitVec 8)
  deriving DecidableEq, Repr

/-- The command that R53 names for the packet's opcode; only the fields of its column "uses" are read (R56). -/
def selectCommand (p : Packet) : Except DecodeError Instr :=
  match (opcodeOf p).toNat with
  | 0x00 => .ok .nop
  | 0x01 => .ok (.dset (dOf p) (aOf p) (eOf p) (bOf p))
  | 0x02 => .ok (.dview (dOf p) (sOf p) (aOf p) (eOf p))
  | 0x03 => .ok (.dimm (dOf p) (sOf p))
  | 0x04 => .ok (.size (dOf p))
  | 0x08 => .ok (.mrd (aOf p))
  | 0x09 => .ok (.mwr (aOf p) (vOf p))
  | 0x10 => .ok (.getbit (dOf p) (aOf p))
  | 0x11 => .ok (.getbits (dOf p) (aOf p) (lenOf p))
  | 0x20 => .ok (.rset (dOf p) (aOf p) (eOf p))
  | 0x21 => .ok (.rclr (dOf p) (aOf p) (eOf p))
  | 0x22 => .ok (.rxor (dOf p) (aOf p) (eOf p))
  | 0x40 => .ok (.wbitSet (dOf p) (aOf p) (bOf p))
  | 0x41 => .ok (.wbitAnd (dOf p) (aOf p) (bOf p))
  | 0x42 => .ok (.wbitOr (dOf p) (aOf p) (bOf p))
  | 0x43 => .ok (.wbitXor (dOf p) (aOf p) (bOf p))
  | 0x44 => .ok (.wbitsSet (dOf p) (aOf p) (lenOf p) (vOf p))
  | 0x45 => .ok (.wbitsAnd (dOf p) (aOf p) (lenOf p) (vOf p))
  | 0x46 => .ok (.wbitsOr (dOf p) (aOf p) (lenOf p) (vOf p))
  | 0x47 => .ok (.wbitsXor (dOf p) (aOf p) (lenOf p) (vOf p))
  | 0x48 => .ok (.wfillSet (dOf p) (bOf p))
  | 0x49 => .ok (.wfillAnd (dOf p) (bOf p))
  | 0x4A => .ok (.wfillOr (dOf p) (bOf p))
  | 0x4B => .ok (.wfillXor (dOf p) (bOf p))
  | 0x4C => .ok (.wrangeSet (dOf p) (aOf p) (eOf p) (bOf p))
  | 0x4D => .ok (.wrangeAnd (dOf p) (aOf p) (eOf p) (bOf p))
  | 0x4E => .ok (.wrangeOr (dOf p) (aOf p) (eOf p) (bOf p))
  | 0x4F => .ok (.wrangeXor (dOf p) (aOf p) (eOf p) (bOf p))
  | 0x50 => .ok (.wstoreSet (dOf p) (sOf p) (aOf p))
  | 0x51 => .ok (.wstoreAnd (dOf p) (sOf p) (aOf p))
  | 0x52 => .ok (.wstoreOr (dOf p) (sOf p) (aOf p))
  | 0x53 => .ok (.wstoreXor (dOf p) (sOf p) (aOf p))
  | _ => .error (.noSuchCommand (opcodeOf p))

/-- Decode, the first step of every command, total on all `2^192` packets (R55). -/
def decode (p : Packet) : Except DecodeError Instr :=
  if rsvOf p ≠ 0 then .error .reservedBits else selectCommand p

/-! ## Encode (R51, R53, R59) -/

/-- `CW0` from its fields, `rsv` zero (R51). -/
def packCw0 (op : BitVec 8) (d s : Fin 16) (len : Nat) (b : Bool) : Word :=
  (0 : BitVec 40) ++ BitVec.ofBool b ++ BitVec.ofNat 7 len ++ BitVec.ofFin (w := 4) s ++ BitVec.ofFin (w := 4) d ++ op

/-- `CW1` from the integers `A` and `B` (R51). -/
def packCw1 (a e : Int) : Word := BitVec.ofInt 32 e ++ BitVec.ofInt 32 a

/-- The opcode of a command (R53). -/
def Instr.opcode : Instr → BitVec 8
  | .nop => 0x00
  | .dset _ _ _ _ => 0x01
  | .dview _ _ _ _ => 0x02
  | .dimm _ _ => 0x03
  | .size _ => 0x04
  | .mrd _ => 0x08
  | .mwr _ _ => 0x09
  | .getbit _ _ => 0x10
  | .getbits _ _ _ => 0x11
  | .rset _ _ _ => 0x20
  | .rclr _ _ _ => 0x21
  | .rxor _ _ _ => 0x22
  | .wbitSet _ _ _ => 0x40
  | .wbitAnd _ _ _ => 0x41
  | .wbitOr _ _ _ => 0x42
  | .wbitXor _ _ _ => 0x43
  | .wbitsSet _ _ _ _ => 0x44
  | .wbitsAnd _ _ _ _ => 0x45
  | .wbitsOr _ _ _ _ => 0x46
  | .wbitsXor _ _ _ _ => 0x47
  | .wfillSet _ _ => 0x48
  | .wfillAnd _ _ => 0x49
  | .wfillOr _ _ => 0x4A
  | .wfillXor _ _ => 0x4B
  | .wrangeSet _ _ _ _ => 0x4C
  | .wrangeAnd _ _ _ _ => 0x4D
  | .wrangeOr _ _ _ _ => 0x4E
  | .wrangeXor _ _ _ _ => 0x4F
  | .wstoreSet _ _ _ => 0x50
  | .wstoreAnd _ _ _ => 0x51
  | .wstoreOr _ _ _ => 0x52
  | .wstoreXor _ _ _ => 0x53

/-- The packet of a command: the syntax table of R59, "all others zero". It means something for a well-formed command only:
of an integer or a length that does not fit its field the low bits are kept, and the packet is another command's (log
entry 9). -/
def encode (i : Instr) : Packet :=
  match i with
  | .nop => ⟨packCw0 i.opcode 0 0 0 false, packCw1 0 0, 0⟩
  | .dset d a e b => ⟨packCw0 i.opcode d 0 0 b, packCw1 a e, 0⟩
  | .dview d r a e => ⟨packCw0 i.opcode d r 0 false, packCw1 a e, 0⟩
  | .dimm d r => ⟨packCw0 i.opcode d r 0 false, packCw1 0 0, 0⟩
  | .size d => ⟨packCw0 i.opcode d 0 0 false, packCw1 0 0, 0⟩
  | .mrd a => ⟨packCw0 i.opcode 0 0 0 false, packCw1 a 0, 0⟩
  | .mwr a v => ⟨packCw0 i.opcode 0 0 0 false, packCw1 a 0, v⟩
  | .getbit d a => ⟨packCw0 i.opcode d 0 0 false, packCw1 a 0, 0⟩
  | .getbits d a len => ⟨packCw0 i.opcode d 0 len false, packCw1 a 0, 0⟩
  | .rset d a e => ⟨packCw0 i.opcode d 0 0 false, packCw1 a e, 0⟩
  | .rclr d a e => ⟨packCw0 i.opcode d 0 0 false, packCw1 a e, 0⟩
  | .rxor d a e => ⟨packCw0 i.opcode d 0 0 false, packCw1 a e, 0⟩
  | .wbitSet d a b => ⟨packCw0 i.opcode d 0 0 b, packCw1 a 0, 0⟩
  | .wbitAnd d a b => ⟨packCw0 i.opcode d 0 0 b, packCw1 a 0, 0⟩
  | .wbitOr d a b => ⟨packCw0 i.opcode d 0 0 b, packCw1 a 0, 0⟩
  | .wbitXor d a b => ⟨packCw0 i.opcode d 0 0 b, packCw1 a 0, 0⟩
  | .wbitsSet d a len v => ⟨packCw0 i.opcode d 0 len false, packCw1 a 0, v⟩
  | .wbitsAnd d a len v => ⟨packCw0 i.opcode d 0 len false, packCw1 a 0, v⟩
  | .wbitsOr d a len v => ⟨packCw0 i.opcode d 0 len false, packCw1 a 0, v⟩
  | .wbitsXor d a len v => ⟨packCw0 i.opcode d 0 len false, packCw1 a 0, v⟩
  | .wfillSet d b => ⟨packCw0 i.opcode d 0 0 b, packCw1 0 0, 0⟩
  | .wfillAnd d b => ⟨packCw0 i.opcode d 0 0 b, packCw1 0 0, 0⟩
  | .wfillOr d b => ⟨packCw0 i.opcode d 0 0 b, packCw1 0 0, 0⟩
  | .wfillXor d b => ⟨packCw0 i.opcode d 0 0 b, packCw1 0 0, 0⟩
  | .wrangeSet d a e b => ⟨packCw0 i.opcode d 0 0 b, packCw1 a e, 0⟩
  | .wrangeAnd d a e b => ⟨packCw0 i.opcode d 0 0 b, packCw1 a e, 0⟩
  | .wrangeOr d a e b => ⟨packCw0 i.opcode d 0 0 b, packCw1 a e, 0⟩
  | .wrangeXor d a e b => ⟨packCw0 i.opcode d 0 0 b, packCw1 a e, 0⟩
  | .wstoreSet d r a => ⟨packCw0 i.opcode d r 0 false, packCw1 a 0, 0⟩
  | .wstoreAnd d r a => ⟨packCw0 i.opcode d r 0 false, packCw1 a 0, 0⟩
  | .wstoreOr d r a => ⟨packCw0 i.opcode d r 0 false, packCw1 a 0, 0⟩
  | .wstoreXor d r a => ⟨packCw0 i.opcode d r 0 false, packCw1 a 0, 0⟩

/-! ## The opcode table as data (R53, R58) -/

/-- The 32 opcodes of R53, in the table's order. -/
def opcodes : List (BitVec 8) :=
  [0x00, 0x01, 0x02, 0x03, 0x04, 0x08, 0x09, 0x10, 0x11, 0x20, 0x21, 0x22]
  ++ [0x40, 0x41, 0x42, 0x43, 0x44, 0x45, 0x46, 0x47, 0x48, 0x49, 0x4A, 0x4B, 0x4C, 0x4D, 0x4E, 0x4F, 0x50, 0x51, 0x52, 0x53]

/-- `mask` of every row of spec/opcode_table.json: the `rsv` and `opcode` bits of `CW0` (R58). -/
def tableMask : Word := 0xFFFFFFFFFF0000FF

/-- The operand fields of R51. -/
inductive OperandField where
  | d | s | len | b | a | e | v
  deriving DecidableEq, Repr

/-- The bits of an operand field in a packet, as a number. -/
def fieldBits (p : Packet) : OperandField → Nat
  | .d => (dOf p).val
  | .s => (sOf p).val
  | .len => lenOf p
  | .b => (bOf p).toNat
  | .a => (p.cw1.extractLsb' 0 32).toNat
  | .e => (p.cw1.extractLsb' 32 32).toNat
  | .v => (vOf p).toNat

/-- Column "uses" of R53: the operand fields the command reads. -/
def Instr.uses : Instr → List OperandField
  | .nop => []
  | .dset _ _ _ _ => [.d, .a, .e, .b]
  | .dview _ _ _ _ => [.d, .s, .a, .e]
  | .dimm _ _ => [.d, .s]
  | .size _ => [.d]
  | .mrd _ => [.a]
  | .mwr _ _ => [.a, .v]
  | .getbit _ _ => [.d, .a]
  | .getbits _ _ _ => [.d, .a, .len]
  | .rset _ _ _ => [.d, .a, .e]
  | .rclr _ _ _ => [.d, .a, .e]
  | .rxor _ _ _ => [.d, .a, .e]
  | .wbitSet _ _ _ => [.d, .a, .b]
  | .wbitAnd _ _ _ => [.d, .a, .b]
  | .wbitOr _ _ _ => [.d, .a, .b]
  | .wbitXor _ _ _ => [.d, .a, .b]
  | .wbitsSet _ _ _ _ => [.d, .a, .len, .v]
  | .wbitsAnd _ _ _ _ => [.d, .a, .len, .v]
  | .wbitsOr _ _ _ _ => [.d, .a, .len, .v]
  | .wbitsXor _ _ _ _ => [.d, .a, .len, .v]
  | .wfillSet _ _ => [.d, .b]
  | .wfillAnd _ _ => [.d, .b]
  | .wfillOr _ _ => [.d, .b]
  | .wfillXor _ _ => [.d, .b]
  | .wrangeSet _ _ _ _ => [.d, .a, .e, .b]
  | .wrangeAnd _ _ _ _ => [.d, .a, .e, .b]
  | .wrangeOr _ _ _ _ => [.d, .a, .e, .b]
  | .wrangeXor _ _ _ _ => [.d, .a, .e, .b]
  | .wstoreSet _ _ _ => [.d, .s, .a]
  | .wstoreAnd _ _ _ => [.d, .s, .a]
  | .wstoreOr _ _ _ => [.d, .s, .a]
  | .wstoreXor _ _ _ => [.d, .s, .a]

/-! ## The host's numbering of a table row -/

/-- What the decoder reads from a packet whose low `nbits` bits are `w` (bit 0 the least significant of `CW0`, the
table's and R50's own numbering) and whose other bits are zero. -/
def tablePacket (nbits w : Nat) : Packet := packetOfBits (BitVec.ofNat 192 (w % 2 ^ nbits))

/-- The command the decoder reads from that packet, none where it refuses. -/
def decodeTableWord (nbits w : Nat) : Option Instr :=
  match decode (tablePacket nbits w) with
  | .ok i => some i
  | .error _ => none

end Sys2Proof
end

