-- ==== Sys2Proof/Machine/State.lean ====
section
/-! DEFINITION. The state of the engine: the triple `(WM, D, RESP)` of spec/10_state.md and three fields of the model's
own; the reasons a step can stop; the state right after reset (R19, R160). -/

namespace Sys2Proof.Machine

/-- `RESP.code` (R14, R140): the four values of the 2-bit field. -/
inductive Code where
  /-- 0: the command passed its checks. -/
  | ok
  /-- 1: a bad argument, or a packet that does not decode. -/
  | invalidArgument
  /-- 2: the mutability gate. -/
  | invalidState
  /-- 3: reserved, no command produces it (R143). -/
  | endOfStream
  deriving DecidableEq, Repr

/-- The response register `RESP` (R14). -/
structure Resp where
  code : Code
  val  : Word
  deriving DecidableEq, Repr

/-- One window descriptor (R11). Positions are mathematical integers (R6), held non-negative; that they fit the 32 bits
of R11 is part of the invariant (`finish <= NBITS < 2^31`). -/
structure Descriptor where
  start     : Nat
  finish    : Nat
  mutable   : Bool
  deriving DecidableEq, Repr

/-- The listed words of `WM`, by word index. A word that is not listed has not been written since the last reset and
reads as the free value `Config.powerUpWord` (log entry 1). -/
abbrev Memory := List (Nat × Word)

/-- What the host can do at the command port (R168). -/
inductive HostEvent where
  /-- Issue one command packet, any bit pattern. -/
  | packet (p : Packet)
  /-- The reset event, between commands (R20). -/
  | reset
  deriving DecidableEq, Repr

/-- The state of one engine. -/
structure State where
  nwords : Nat
  wm     : Memory
  desc   : Vector Descriptor 16
  resp   : Resp
  resets : Nat
  port   : List HostEvent
  deriving DecidableEq, Repr

/-- Why the machine can stop with a fault. -/
inductive Fault where
  /-- A command would touch word `w` of `WM`, and `WM` has no such word. Raised by every command that reads or writes bits
  through a descriptor, only in states that break the descriptor invariant R16, which no reachable state does. Safe: the
  model stops where the spec says nothing (log entry 6). -/
  | noSuchWord (w : Nat)
  deriving DecidableEq, Repr

/-- Why an instruction can be refused. -/
inductive Refusal where
  /-- An instruction without a meaning yet. Raised by no arm of `exec`: every command of R53 has its meaning. Safe. -/
  | notModelled (mnemonic : String)
  deriving DecidableEq, Repr

/-- The value of every descriptor after reset: an empty, immutable window at offset 0 (R19). -/
def Descriptor.empty : Descriptor := ⟨0, 0, false⟩

/-- An engine of `n` words right after its first reset (R19, R160): descriptors `(0, 0, 0)`, `RESP = (0, 0)`, no word of
`WM` written, nothing at the port. -/
def State.resetOf (n : Nat) : State where
  nwords := n
  wm     := []
  desc   := Vector.replicate 16 Descriptor.empty
  resp   := ⟨.ok, 0⟩
  resets := 0
  port   := []

/-- The machine right after reset, as an instance of `Config.resetWords` words (log entry 2). -/
def State.reset : State := State.resetOf Config.resetWords

end Sys2Proof.Machine
end

