-- ==== Sys2Proof/Machine/Combine.lean ====
section
/-! DEFINITION. The combine kinds and the range ops: per bit and per word, the masks, and the table that turns a constant
combine into a range op (spec/43_combinator_bit_span.md R100, R101; spec/42_range_algebra.md R90, R91;
spec/44_combinator_fill_range_store.md R120). -/

namespace Sys2Proof.Machine

/-- A kind of the combinator (R54, R100). -/
inductive Kind where
  | set | and | or | xor
  deriving DecidableEq, Repr

/-- A range op of the range engine; not a kind (conflict C5). -/
inductive RangeOp where
  | set | clear | xor
  deriving DecidableEq, Repr

/-- `comb(k, old, new)` of R100. -/
def comb (k : Kind) (old new : Bool) : Bool :=
  match k with
  | .set => new
  | .and => old && new
  | .or  => old || new
  | .xor => old ^^ new

/-- `Comb(k, w, m, d)` of R101: the old word `w`, a mask `m`, data `d`. -/
def combWord (k : Kind) (w m d : Word) : Word :=
  match k with
  | .set => (w &&& ~~~m) ||| (d &&& m)
  | .and => w &&& (d ||| ~~~m)
  | .or  => w ||| (d &&& m)
  | .xor => w ^^^ (d &&& m)

/-- What a range op makes of one bit (R90). -/
def rangeBit (op : RangeOp) (old : Bool) : Bool :=
  match op with
  | .set   => true
  | .clear => false
  | .xor   => !old

/-- `apply(op, w, m)` of R91. -/
def rangeWord (op : RangeOp) (w m : Word) : Word :=
  match op with
  | .set   => w ||| m
  | .clear => w &&& ~~~m
  | .xor   => w ^^^ m

/-- `Rat(k, b)` of R120; `none` where no bit changes. -/
def rationalise (k : Kind) (b : Bool) : Option RangeOp :=
  match k, b with
  | .set, false => some .clear
  | .set, true  => some .set
  | .and, false => some .clear
  | .and, true  => none
  | .or,  false => none
  | .or,  true  => some .set
  | .xor, false => none
  | .xor, true  => some .xor

/-- `mask(len)` of R6, the number `2^len - 1` (R82: never formed by a 64-bit shift). -/
def maskOf (len : Nat) : Word := BitVec.ofNat 64 (2 ^ len - 1)

/-- The number whose bit `i` is `f (j + i)` for `i < n`. -/
def natOfBits (f : Nat → Bool) : Nat → Nat → Nat
  | _, 0 => 0
  | j, n + 1 => (f j).toNat + 2 * natOfBits f (j + 1) n

/-- The word whose bit `j` is `f j` (R5). -/
def wordOfBits (f : Nat → Bool) : Word := BitVec.ofNat 64 (natOfBits f 0 64)

/-- A bit as a `u64` (`zext_64`, R83). -/
def wordOfBit (b : Bool) : Word := bif b then 1 else 0

end Sys2Proof.Machine
end

