-- ==== Sys2Proof/Machine/Ops.lean ====
section
/-! DEFINITION. The named operations over the word memory, the descriptor file and the response register; raising an
error, the engine's whole "trap entry" (spec/60_exceptions.md R141, R146); the reset event; and what happens at the
command port. There is no return from an error to model (R148). -/

namespace Sys2Proof.Machine

/-! ## The listed words of `WM` -/

/-- The value listed for word `w`, none if the word has not been written since the last reset. -/
def Memory.content : Memory → Nat → Option Word
  | [], _ => none
  | (x, u) :: m, w => if x = w then some u else Memory.content m w

/-- List `v` for word `w`, keeping the word indices rising. -/
def Memory.write : Memory → Nat → Word → Memory
  | [], w, v => [(w, v)]
  | (x, u) :: m, w, v =>
    if w < x then (w, v) :: (x, u) :: m
    else if w = x then (w, v) :: m
    else (x, u) :: Memory.write m w v

/-- List `g w` for the `n` words from `w` on. -/
def Memory.writeWords (g : Nat → Word) : Memory → Nat → Nat → Memory
  | m, _, 0 => m
  | m, w, n + 1 => Memory.writeWords g (Memory.write m w (g w)) (w + 1) n

/-- The canonical form for a memory of `n` words: indices strictly rising, each below `n`. An entry is a written word and
an unlisted word is one not written, so no entry says what an unlisted word says (log entry 1). -/
abbrev Memory.wf (n : Nat) (m : Memory) : Prop :=
  m.Pairwise (fun x y => x.1 < y.1) ∧ ∀ c ∈ m, c.1 < n

/-! ## Words and bits of `WM` (R6, R10, R30) -/

/-- `WM[w]`, `MemRead(w, 64)`. -/
def State.word (s : State) (w : Nat) : Word :=
  (Memory.content s.wm w).getD (Config.powerUpWord s.resets w)

/-- `WM[w] <- v`, `MemWrite(w, 64, v)`. -/
def State.setWord (s : State) (w : Nat) (v : Word) : State := { s with wm := Memory.write s.wm w v }

/-- `Bit(a) = WM[a >> 6][a & 63]`. -/
def State.bit (s : State) (a : Nat) : Bool := (s.word (a / 64)).getLsbD (a % 64)

/-- `NBITS = 64 * NWORDS` (R4). -/
def State.nbits (s : State) : Nat := 64 * s.nwords

/-- Word `w` with the bits of the absolute range `[lo, hi)` replaced by `g` and the others as they are. -/
def State.mergedWord (s : State) (lo hi : Nat) (g : Nat → Bool) (w : Nat) : Word :=
  wordOfBits fun j =>
    if lo ≤ 64 * w + j ∧ 64 * w + j < hi then g (64 * w + j) else (s.word w).getLsbD j

/-- `Bit(a) <- g(a)` for every `lo <= a < hi`, and no other bit. The engine reads, merges and writes back the words
`lo >> 6 .. (hi - 1) >> 6` (R36). `g` is a function of the state BEFORE the command, so everything a command reads is
sampled before its first write (R131). -/
def State.putBits (s : State) (lo hi : Nat) (g : Nat → Bool) : State :=
  { s with wm :=
      if lo < hi then Memory.writeWords (s.mergedWord lo hi g) s.wm (lo / 64) ((hi - 1) / 64 - lo / 64 + 1)
      else s.wm }

/-! ## The three primitives, per bit -/

/-- `ReadSpan(a, len)` of R80. -/
def State.readSpan (s : State) (a len : Nat) : Word :=
  wordOfBits fun i => decide (i < len) && s.bit (a + i)

/-- `ApplyRange(op, from, to)` of R90, over absolute bit offsets. -/
def State.applyRange (s : State) (op : RangeOp) (lo hi : Nat) : State :=
  s.putBits lo hi fun a => rangeBit op (s.bit a)

/-- `WriteSpan(k, a, len, v)` of R103. -/
def State.writeSpan (s : State) (k : Kind) (a len : Nat) (v : Word) : State :=
  s.putBits a (a + len) fun x => comb k (s.bit x) (v.getLsbD (x - a))

/-- `Bit(a) <- comb(k, Bit(a), b)` of R102. -/
def State.writeBit (s : State) (k : Kind) (a : Nat) (b : Bool) : State :=
  s.putBits a (a + 1) fun x => comb k (s.bit x) b

/-- The two loops of R129: source bits `[src, src + n)` are sampled from the state before the command and combined into
`[dst, dst + n)`, source index `i` meeting destination index `i` (R130). -/
def State.transfer (s : State) (k : Kind) (src dst n : Nat) : State :=
  s.putBits dst (dst + n) fun x => comb k (s.bit x) (s.bit (src + (x - dst)))

/-! ## The descriptor file -/

/-- `D[d]` (R11). -/
def State.window (s : State) (d : Fin 16) : Descriptor := s.desc[d]

/-- `D[d] <- w`. -/
def State.setWindow (s : State) (d : Fin 16) (w : Descriptor) : State := { s with desc := s.desc.set d w }

/-! ## The response register and errors -/

/-- `RESP <- (code, val)` (R14). -/
def State.reply (s : State) (c : Code) (v : Word) : State := { s with resp := ⟨c, v⟩ }

/-- `RESP <- (0, v)`: the last act of a command that passed its checks (R8). -/
def State.done (s : State) (v : Word) : State := s.reply .ok v

/-- `raise E` (R141): `RESP <- (code of E, 0)` and nothing else. -/
def State.raise (s : State) (c : Code) : State := s.reply c 0

/-- Go on if no check failed, else end the command with the error of the check that did (R8, R145). -/
def State.checked (s : State) (e : Option Code) (k : Host.Outcome State Fault Refusal) : Host.Outcome State Fault Refusal :=
  match e with
  | some c => .next (s.raise c)
  | none => k

/-- Go on if `WM` has every word of the bit range `[lo, hi)`; an empty range touches no word (R36). -/
def State.within (s : State) (lo hi : Nat) (k : Host.Outcome State Fault Refusal) : Host.Outcome State Fault Refusal :=
  if hi ≤ lo ∨ hi ≤ s.nbits then k else .fault (.noSuchWord ((hi - 1) / 64))

/-! ## The command port and reset -/

/-- The reset event (R19, R20, R160): descriptors `(0, 0, 0)`, `RESP = (0, 0)`, every word of `WM` unspecified anew. The
engine's size and what the host is going to issue stay. -/
def State.afterReset (s : State) : State :=
  { State.resetOf s.nwords with resets := s.resets + 1, port := s.port }

/-- The host's next packet is `p`. -/
def State.issue (s : State) (p : Packet) : State := { s with port := .packet p :: s.port }

/-- An undecodable packet (R55): `raise InvalidArgument`, whichever of the two reasons it is. -/
def State.undecodable (s : State) (_e : DecodeError) : State := s.raise .invalidArgument

end Sys2Proof.Machine
end

