-- ==== Sys2Proof/Machine/Operands.lean ====
section
/-! DEFINITION. The operand forms: a window-relative index or range and an absolute word index
(spec/20_memory.md R31, R38). Positions are mathematical integers and no sum wraps (spec/00_scope.md R6;
spec/43_combinator_bit_span.md R114). -/

namespace Sys2Proof.Machine

/-- `size(d) = D[d].finish - D[d].start` (R6). -/
def Descriptor.size (w : Descriptor) : Int := (w.finish : Int) - (w.start : Int)

/-- The absolute bit offset of a logical index: `D[d].start + i` (R31). Used after the check that the index is not
negative. -/
def Descriptor.abs (w : Descriptor) (i : Int) : Nat := ((w.start : Int) + i).toNat

/-- The number of bits of the window, for a window whose size is not negative. -/
def Descriptor.count (w : Descriptor) : Nat := w.finish - w.start

end Sys2Proof.Machine
end

