-- ==== Sys2Proof/Machine/Flags.lean ====
section
/-! DEFINITION. The engine has no flags (spec/10_state.md R15); the one status a command leaves is `RESP.code`. This file
computes it: the argument checks in the order the spec lists them and the mutability gate
(spec/60_exceptions.md R142, R144, R145). Each answers the error to raise, none if the check passes. -/

namespace Sys2Proof.Machine

/-- `A < 0`; `A >= sz` (R83, R102). -/
def indexCheck (sz a : Int) : Option Code :=
  if a < 0 then some .invalidArgument
  else if a ≥ sz then some .invalidArgument
  else none

/-- `len > 64`; `A < 0`; `A + len > sz` (R84, R112). -/
def spanCheck (sz a : Int) (len : Nat) : Option Code :=
  if len > 64 then some .invalidArgument
  else if a < 0 then some .invalidArgument
  else if a + (len : Int) > sz then some .invalidArgument
  else none

/-- `A < 0`; `B > sz`; `A > B` (R72, R93, R138). -/
def rangeCheck (sz a e : Int) : Option Code :=
  if a < 0 then some .invalidArgument
  else if e > sz then some .invalidArgument
  else if a > e then some .invalidArgument
  else none

/-- `A < 0`; `A + n > sz` (R129). -/
def storeCheck (sz n a : Int) : Option Code :=
  if a < 0 then some .invalidArgument
  else if a + n > sz then some .invalidArgument
  else none

/-- `A < 0`; `B < A`; `B > NBITS` (R71). -/
def windowCheck (nbits : Nat) (a e : Int) : Option Code :=
  if a < 0 then some .invalidArgument
  else if e < a then some .invalidArgument
  else if e > (nbits : Int) then some .invalidArgument
  else none

/-- `A < 0 or A >= NWORDS` (R75, R76). -/
def wordCheck (nwords : Nat) (a : Int) : Option Code :=
  if a < 0 ∨ a ≥ (nwords : Int) then some .invalidArgument else none

/-- The mutability gate (R142): only the command's own target counts. -/
def gate (w : Descriptor) : Option Code :=
  if w.mutable then none else some .invalidState

/-- The first of two checks that fails (R145). -/
def firstFailure (e g : Option Code) : Option Code :=
  match e with
  | some c => some c
  | none => g

end Sys2Proof.Machine
end

