-- ==== Sys2Proof/Machine/BitAccess.lean ====
section
/-! DEFINITION. Bit access, the read side: GETBIT and GETBITS (spec/41_bit_access.md). Reading an immutable window is
allowed. -/

namespace Sys2Proof.Machine

/-- `GETBIT Dd, i` (R83). -/
def execGetbit (d : Fin 16) (a : Int) (s : State) : Host.Outcome State Fault Refusal :=
  let w := s.window d
  s.checked (indexCheck w.size a)
    (s.within (w.abs a) (w.abs a + 1) (.next (s.done (wordOfBit (s.bit (w.abs a))))))

/-- `GETBITS Dd, pos, len` (R84). -/
def execGetbits (d : Fin 16) (a : Int) (len : Nat) (s : State) : Host.Outcome State Fault Refusal :=
  let w := s.window d
  s.checked (spanCheck w.size a len)
    (s.within (w.abs a) (w.abs a + len) (.next (s.done (s.readSpan (w.abs a) len))))

end Sys2Proof.Machine
end

