-- ==== Sys2Proof/Machine/CombineBitSpan.lean ====
section
/-! DEFINITION. The combinator on a bit and on a span: WBIT.k and WBITS.k (spec/43_combinator_bit_span.md). -/

namespace Sys2Proof.Machine

/-- The common part of the four `WBIT.k` commands (R102). -/
def bitCommand (k : Kind) (d : Fin 16) (a : Int) (b : Bool) (s : State) : Host.Outcome State Fault Refusal :=
  let w := s.window d
  s.checked (firstFailure (indexCheck w.size a) (gate w))
    (s.within (w.abs a) (w.abs a + 1) (.next ((s.writeBit k (w.abs a) b).done 0)))

/-- `WBIT.SET Dd, i, b` (R104). -/
def execWbitSet (d : Fin 16) (a : Int) (b : Bool) (s : State) : Host.Outcome State Fault Refusal :=
  bitCommand .set d a b s

/-- `WBIT.AND Dd, i, b` (R105). -/
def execWbitAnd (d : Fin 16) (a : Int) (b : Bool) (s : State) : Host.Outcome State Fault Refusal :=
  bitCommand .and d a b s

/-- `WBIT.OR Dd, i, b` (R106). -/
def execWbitOr (d : Fin 16) (a : Int) (b : Bool) (s : State) : Host.Outcome State Fault Refusal :=
  bitCommand .or d a b s

/-- `WBIT.XOR Dd, i, b` (R107). -/
def execWbitXor (d : Fin 16) (a : Int) (b : Bool) (s : State) : Host.Outcome State Fault Refusal :=
  bitCommand .xor d a b s

/-- The common part of the four `WBITS.k` commands (R112). -/
def spanCommand (k : Kind) (d : Fin 16) (a : Int) (len : Nat) (v : Word) (s : State) :
    Host.Outcome State Fault Refusal :=
  let w := s.window d
  s.checked (firstFailure (spanCheck w.size a len) (gate w))
    (s.within (w.abs a) (w.abs a + len) (.next ((s.writeSpan k (w.abs a) len v).done 0)))

/-- `WBITS.SET Dd, pos, len, V` (R108). -/
def execWbitsSet (d : Fin 16) (a : Int) (len : Nat) (v : Word) (s : State) : Host.Outcome State Fault Refusal :=
  spanCommand .set d a len v s

/-- `WBITS.AND Dd, pos, len, V` (R109). -/
def execWbitsAnd (d : Fin 16) (a : Int) (len : Nat) (v : Word) (s : State) : Host.Outcome State Fault Refusal :=
  spanCommand .and d a len v s

/-- `WBITS.OR Dd, pos, len, V` (R110). -/
def execWbitsOr (d : Fin 16) (a : Int) (len : Nat) (v : Word) (s : State) : Host.Outcome State Fault Refusal :=
  spanCommand .or d a len v s

/-- `WBITS.XOR Dd, pos, len, V` (R111). -/
def execWbitsXor (d : Fin 16) (a : Int) (len : Nat) (v : Word) (s : State) : Host.Outcome State Fault Refusal :=
  spanCommand .xor d a len v s

end Sys2Proof.Machine
end

