-- ==== Sys2Proof/Machine/CombineConst.lean ====
section
/-! DEFINITION. The combinator with a boolean constant: WFILL.k and WRANGE.k (spec/44_combinator_fill_range_store.md, section 1). -/

namespace Sys2Proof.Machine

/-- Combine every bit of the absolute range `[lo, hi)` with `b`: the range op of R120 if there is one; else no word is
touched and no bit changes. -/
def constRange (k : Kind) (b : Bool) (lo hi : Nat) (s : State) : Host.Outcome State Fault Refusal :=
  match rationalise k b with
  | some op => s.within lo hi (.next ((s.applyRange op lo hi).done 0))
  | none => .next (s.done 0)

/-- The common part of the four `WFILL.k` commands (R137). -/
def fillCommand (k : Kind) (d : Fin 16) (b : Bool) (s : State) : Host.Outcome State Fault Refusal :=
  let w := s.window d
  s.checked (gate w) (constRange k b w.start w.finish s)

/-- `WFILL.SET Dd, b` (R121). -/
def execWfillSet (d : Fin 16) (b : Bool) (s : State) : Host.Outcome State Fault Refusal :=
  fillCommand .set d b s

/-- `WFILL.AND Dd, b` (R122). -/
def execWfillAnd (d : Fin 16) (b : Bool) (s : State) : Host.Outcome State Fault Refusal :=
  fillCommand .and d b s

/-- `WFILL.OR Dd, b` (R123). -/
def execWfillOr (d : Fin 16) (b : Bool) (s : State) : Host.Outcome State Fault Refusal :=
  fillCommand .or d b s

/-- `WFILL.XOR Dd, b` (R124). -/
def execWfillXor (d : Fin 16) (b : Bool) (s : State) : Host.Outcome State Fault Refusal :=
  fillCommand .xor d b s

/-- The common part of the four `WRANGE.k` commands (R138). -/
def constRangeCommand (k : Kind) (d : Fin 16) (a e : Int) (b : Bool) (s : State) : Host.Outcome State Fault Refusal :=
  let w := s.window d
  s.checked (firstFailure (rangeCheck w.size a e) (gate w)) (constRange k b (w.abs a) (w.abs e) s)

/-- `WRANGE.SET Dd, from, to, b` (R125). -/
def execWrangeSet (d : Fin 16) (a e : Int) (b : Bool) (s : State) : Host.Outcome State Fault Refusal :=
  constRangeCommand .set d a e b s

/-- `WRANGE.AND Dd, from, to, b` (R126). -/
def execWrangeAnd (d : Fin 16) (a e : Int) (b : Bool) (s : State) : Host.Outcome State Fault Refusal :=
  constRangeCommand .and d a e b s

/-- `WRANGE.OR Dd, from, to, b` (R127). -/
def execWrangeOr (d : Fin 16) (a e : Int) (b : Bool) (s : State) : Host.Outcome State Fault Refusal :=
  constRangeCommand .or d a e b s

/-- `WRANGE.XOR Dd, from, to, b` (R128). -/
def execWrangeXor (d : Fin 16) (a e : Int) (b : Bool) (s : State) : Host.Outcome State Fault Refusal :=
  constRangeCommand .xor d a e b s

end Sys2Proof.Machine
end

