-- ==== Sys2Proof/Machine/CombineStore.lean ====
section
/-! DEFINITION. The combinator with a store: WSTORE.k (spec/44_combinator_fill_range_store.md, section 2). -/

namespace Sys2Proof.Machine

/-- The common part of the four `WSTORE.k` commands (R129): the mutability of the source does not matter. -/
def storeCommand (k : Kind) (d r : Fin 16) (a : Int) (s : State) : Host.Outcome State Fault Refusal :=
  let w := s.window d
  let u := s.window r
  s.checked (firstFailure (storeCheck w.size u.size a) (gate w))
    (s.within u.start (u.start + u.count)
      (s.within (w.abs a) (w.abs a + u.count) (.next ((s.transfer k u.start (w.abs a) u.count).done 0))))

/-- `WSTORE.SET Dd, Ds, pos` (R132). -/
def execWstoreSet (d r : Fin 16) (a : Int) (s : State) : Host.Outcome State Fault Refusal :=
  storeCommand .set d r a s

/-- `WSTORE.AND Dd, Ds, pos` (R133). -/
def execWstoreAnd (d r : Fin 16) (a : Int) (s : State) : Host.Outcome State Fault Refusal :=
  storeCommand .and d r a s

/-- `WSTORE.OR Dd, Ds, pos` (R134). -/
def execWstoreOr (d r : Fin 16) (a : Int) (s : State) : Host.Outcome State Fault Refusal :=
  storeCommand .or d r a s

/-- `WSTORE.XOR Dd, Ds, pos` (R135). -/
def execWstoreXor (d r : Fin 16) (a : Int) (s : State) : Host.Outcome State Fault Refusal :=
  storeCommand .xor d r a s

end Sys2Proof.Machine
end

