-- ==== Sys2Proof/Machine/RangeAlgebra.lean ====
section
/-! DEFINITION. The range mask and fill engine: RSET, RCLR, RXOR (spec/42_range_algebra.md). -/

namespace Sys2Proof.Machine

/-- The common part of the three commands (R93). -/
def rangeCommand (op : RangeOp) (d : Fin 16) (a e : Int) (s : State) : Host.Outcome State Fault Refusal :=
  let w := s.window d
  s.checked (firstFailure (rangeCheck w.size a e) (gate w))
    (s.within (w.abs a) (w.abs e) (.next ((s.applyRange op (w.abs a) (w.abs e)).done 0)))

/-- `RSET Dd, from, to` (R94). -/
def execRset (d : Fin 16) (a e : Int) (s : State) : Host.Outcome State Fault Refusal := rangeCommand .set d a e s

/-- `RCLR Dd, from, to` (R95). -/
def execRclr (d : Fin 16) (a e : Int) (s : State) : Host.Outcome State Fault Refusal := rangeCommand .clear d a e s

/-- `RXOR Dd, from, to` (R96). -/
def execRxor (d : Fin 16) (a e : Int) (s : State) : Host.Outcome State Fault Refusal := rangeCommand .xor d a e s

end Sys2Proof.Machine
end

