-- ==== Sys2Proof/Machine/Storage.lean ====
section
/-! DEFINITION. The word storage commands NOP, DSET, DVIEW, DIMM, SIZE, MRD, MWR (spec/40_word_storage.md). -/

namespace Sys2Proof.Machine

/-- `NOP` (R70). -/
def execNop (s : State) : Host.Outcome State Fault Refusal := .next (s.done 0)

/-- `DSET Dd, start, finish, m` (R71): not gated, `WM` untouched. -/
def execDset (d : Fin 16) (a e : Int) (b : Bool) (s : State) : Host.Outcome State Fault Refusal :=
  s.checked (windowCheck s.nbits a e) (.next ((s.setWindow d ⟨a.toNat, e.toNat, b⟩).done 0))

/-- `DVIEW Dd, Ds, from, to` (R72): the view has the mutability of its source. -/
def execDview (d r : Fin 16) (a e : Int) (s : State) : Host.Outcome State Fault Refusal :=
  let w := s.window r
  s.checked (rangeCheck w.size a e) (.next ((s.setWindow d ⟨w.abs a, w.abs e, w.mutable⟩).done 0))

/-- `DIMM Dd, Ds` (R73). -/
def execDimm (d r : Fin 16) (s : State) : Host.Outcome State Fault Refusal :=
  let w := s.window r
  .next ((s.setWindow d ⟨w.start, w.finish, false⟩).done 0)

/-- `SIZE Dd` (R74). -/
def execSize (d : Fin 16) (s : State) : Host.Outcome State Fault Refusal :=
  .next (s.done (BitVec.ofInt 64 (s.window d).size))

/-- `MRD w` (R75). -/
def execMrd (a : Int) (s : State) : Host.Outcome State Fault Refusal :=
  s.checked (wordCheck s.nwords a) (.next (s.done (s.word a.toNat)))

/-- `MWR w, V` (R76): through no descriptor, so not gated. -/
def execMwr (a : Int) (v : Word) (s : State) : Host.Outcome State Fault Refusal :=
  s.checked (wordCheck s.nwords a) (.next ((s.setWord a.toNat v).done 0))

end Sys2Proof.Machine
end

