-- ==== Sys2Proof/Machine/Dispatch.lean ====
section
/-! DEFINITION. One arm per command, each one call of its meaning (spec/30_encoding.md R53). -/

namespace Sys2Proof.Machine

def exec (i : Instr) (s : State) : Host.Outcome State Fault Refusal :=
  match i with
  | .nop => Sys2Proof.Machine.execNop s
  | .dset d a e b => Sys2Proof.Machine.execDset d a e b s
  | .dview d r a e => Sys2Proof.Machine.execDview d r a e s
  | .dimm d r => Sys2Proof.Machine.execDimm d r s
  | .size d => Sys2Proof.Machine.execSize d s
  | .mrd a => Sys2Proof.Machine.execMrd a s
  | .mwr a v => Sys2Proof.Machine.execMwr a v s
  | .getbit d a => Sys2Proof.Machine.execGetbit d a s
  | .getbits d a len => Sys2Proof.Machine.execGetbits d a len s
  | .rset d a e => Sys2Proof.Machine.execRset d a e s
  | .rclr d a e => Sys2Proof.Machine.execRclr d a e s
  | .rxor d a e => Sys2Proof.Machine.execRxor d a e s
  | .wbitSet d a b => Sys2Proof.Machine.execWbitSet d a b s
  | .wbitAnd d a b => Sys2Proof.Machine.execWbitAnd d a b s
  | .wbitOr d a b => Sys2Proof.Machine.execWbitOr d a b s
  | .wbitXor d a b => Sys2Proof.Machine.execWbitXor d a b s
  | .wbitsSet d a len v => Sys2Proof.Machine.execWbitsSet d a len v s
  | .wbitsAnd d a len v => Sys2Proof.Machine.execWbitsAnd d a len v s
  | .wbitsOr d a len v => Sys2Proof.Machine.execWbitsOr d a len v s
  | .wbitsXor d a len v => Sys2Proof.Machine.execWbitsXor d a len v s
  | .wfillSet d b => Sys2Proof.Machine.execWfillSet d b s
  | .wfillAnd d b => Sys2Proof.Machine.execWfillAnd d b s
  | .wfillOr d b => Sys2Proof.Machine.execWfillOr d b s
  | .wfillXor d b => Sys2Proof.Machine.execWfillXor d b s
  | .wrangeSet d a e b => Sys2Proof.Machine.execWrangeSet d a e b s
  | .wrangeAnd d a e b => Sys2Proof.Machine.execWrangeAnd d a e b s
  | .wrangeOr d a e b => Sys2Proof.Machine.execWrangeOr d a e b s
  | .wrangeXor d a e b => Sys2Proof.Machine.execWrangeXor d a e b s
  | .wstoreSet d r a => Sys2Proof.Machine.execWstoreSet d r a s
  | .wstoreAnd d r a => Sys2Proof.Machine.execWstoreAnd d r a s
  | .wstoreOr d r a => Sys2Proof.Machine.execWstoreOr d r a s
  | .wstoreXor d r a => Sys2Proof.Machine.execWstoreXor d r a s

end Sys2Proof.Machine
end

