-- ==== Sys2Proof/Machine/Step.lean ====
section
/-! DEFINITION. One step: the engine takes what the host issues next (spec/70_reset_and_hazards.md R168, R169). A packet
is decoded and carried out to its end (spec/30_encoding.md R55; spec/20_memory.md R40); with nothing issued the engine is
idle, and an idle engine does not change (spec/60_exceptions.md R151). -/

namespace Sys2Proof.Machine

def step (s : State) : Host.Outcome State Fault Refusal :=
  match s.port with
  | [] => .next s
  | .reset :: rest => .next { s with port := rest }.afterReset
  | .packet p :: rest =>
    match decode p with
    | .ok i => exec i { s with port := rest }
    | .error e => .next ({ s with port := rest }.undecodable e)

/-- The host issues next the packet whose low `nbits` bits are `w`, numbered as R50 numbers them. Nothing is fetched from
memory (R13, R43), so nothing else is set (log entry 3). -/
def State.withFetchWord (s : State) (nbits w : Nat) : State := s.issue (tablePacket nbits w)

end Sys2Proof.Machine
end

