-- ==== Sys2Proof/Machine/Checks.lean ====
section
/-! DEFINITION. The argument checks of each command's own rule (R71 to R138; the table of spec/60_exceptions.md R144 collects
them), and the write-class commands with their targets (spec/00_scope.md, glossary; R142). The meanings do not use this
table; statements hold them against it. -/

namespace Sys2Proof.Machine

/-- Column "checks raising InvalidArgument, in order" of R144. -/
def argumentCheck (s : State) : Instr → Option Code
  | .nop => none
  | .dset _ a e _ => windowCheck s.nbits a e
  | .dview _ r a e => rangeCheck (s.window r).size a e
  | .dimm _ _ => none
  | .size _ => none
  | .mrd a => wordCheck s.nwords a
  | .mwr a _ => wordCheck s.nwords a
  | .getbit d a => indexCheck (s.window d).size a
  | .getbits d a len => spanCheck (s.window d).size a len
  | .rset d a e => rangeCheck (s.window d).size a e
  | .rclr d a e => rangeCheck (s.window d).size a e
  | .rxor d a e => rangeCheck (s.window d).size a e
  | .wbitSet d a _ => indexCheck (s.window d).size a
  | .wbitAnd d a _ => indexCheck (s.window d).size a
  | .wbitOr d a _ => indexCheck (s.window d).size a
  | .wbitXor d a _ => indexCheck (s.window d).size a
  | .wbitsSet d a len _ => spanCheck (s.window d).size a len
  | .wbitsAnd d a len _ => spanCheck (s.window d).size a len
  | .wbitsOr d a len _ => spanCheck (s.window d).size a len
  | .wbitsXor d a len _ => spanCheck (s.window d).size a len
  | .wfillSet _ _ => none
  | .wfillAnd _ _ => none
  | .wfillOr _ _ => none
  | .wfillXor _ _ => none
  | .wrangeSet d a e _ => rangeCheck (s.window d).size a e
  | .wrangeAnd d a e _ => rangeCheck (s.window d).size a e
  | .wrangeOr d a e _ => rangeCheck (s.window d).size a e
  | .wrangeXor d a e _ => rangeCheck (s.window d).size a e
  | .wstoreSet d r a => storeCheck (s.window d).size (s.window r).size a
  | .wstoreAnd d r a => storeCheck (s.window d).size (s.window r).size a
  | .wstoreOr d r a => storeCheck (s.window d).size (s.window r).size a
  | .wstoreXor d r a => storeCheck (s.window d).size (s.window r).size a

/-- The target window of a write-class command: `RSET`, `RCLR`, `RXOR` and every `WBIT`, `WBITS`, `WFILL`, `WRANGE`,
`WSTORE`; none for the others (R142). -/
def writeTarget : Instr → Option (Fin 16)
  | .nop => none
  | .dset _ _ _ _ => none
  | .dview _ _ _ _ => none
  | .dimm _ _ => none
  | .size _ => none
  | .mrd _ => none
  | .mwr _ _ => none
  | .getbit _ _ => none
  | .getbits _ _ _ => none
  | .rset d _ _ => some d
  | .rclr d _ _ => some d
  | .rxor d _ _ => some d
  | .wbitSet d _ _ => some d
  | .wbitAnd d _ _ => some d
  | .wbitOr d _ _ => some d
  | .wbitXor d _ _ => some d
  | .wbitsSet d _ _ _ => some d
  | .wbitsAnd d _ _ _ => some d
  | .wbitsOr d _ _ _ => some d
  | .wbitsXor d _ _ _ => some d
  | .wfillSet d _ => some d
  | .wfillAnd d _ => some d
  | .wfillOr d _ => some d
  | .wfillXor d _ => some d
  | .wrangeSet d _ _ _ => some d
  | .wrangeAnd d _ _ _ => some d
  | .wrangeOr d _ _ _ => some d
  | .wrangeXor d _ _ _ => some d
  | .wstoreSet d _ _ => some d
  | .wstoreAnd d _ _ => some d
  | .wstoreOr d _ _ => some d
  | .wstoreXor d _ _ => some d

/-- The descriptor a command writes: `DSET`, `DVIEW`, `DIMM` (spec/10_state.md, section 2); none for the others. -/
def descriptorTarget : Instr → Option (Fin 16)
  | .dset d _ _ _ => some d
  | .dview d _ _ _ => some d
  | .dimm d _ => some d
  | .nop => none
  | .size _ => none
  | .mrd _ => none
  | .mwr _ _ => none
  | .getbit _ _ => none
  | .getbits _ _ _ => none
  | .rset _ _ _ => none
  | .rclr _ _ _ => none
  | .rxor _ _ _ => none
  | .wbitSet _ _ _ => none
  | .wbitAnd _ _ _ => none
  | .wbitOr _ _ _ => none
  | .wbitXor _ _ _ => none
  | .wbitsSet _ _ _ _ => none
  | .wbitsAnd _ _ _ _ => none
  | .wbitsOr _ _ _ _ => none
  | .wbitsXor _ _ _ _ => none
  | .wfillSet _ _ => none
  | .wfillAnd _ _ => none
  | .wfillOr _ _ => none
  | .wfillXor _ _ => none
  | .wrangeSet _ _ _ _ => none
  | .wrangeAnd _ _ _ _ => none
  | .wrangeOr _ _ _ _ => none
  | .wrangeXor _ _ _ _ => none
  | .wstoreSet _ _ _ => none
  | .wstoreAnd _ _ _ => none
  | .wstoreOr _ _ _ => none
  | .wstoreXor _ _ _ => none

/-- The word index `MWR` names, none for the other commands. -/
def wordTarget : Instr → Option Int
  | .mwr a _ => some a
  | .nop => none
  | .dset _ _ _ _ => none
  | .dview _ _ _ _ => none
  | .dimm _ _ => none
  | .size _ => none
  | .mrd _ => none
  | .getbit _ _ => none
  | .getbits _ _ _ => none
  | .rset _ _ _ => none
  | .rclr _ _ _ => none
  | .rxor _ _ _ => none
  | .wbitSet _ _ _ => none
  | .wbitAnd _ _ _ => none
  | .wbitOr _ _ _ => none
  | .wbitXor _ _ _ => none
  | .wbitsSet _ _ _ _ => none
  | .wbitsAnd _ _ _ _ => none
  | .wbitsOr _ _ _ _ => none
  | .wbitsXor _ _ _ _ => none
  | .wfillSet _ _ => none
  | .wfillAnd _ _ => none
  | .wfillOr _ _ => none
  | .wfillXor _ _ => none
  | .wrangeSet _ _ _ _ => none
  | .wrangeAnd _ _ _ _ => none
  | .wrangeOr _ _ _ _ => none
  | .wrangeXor _ _ _ _ => none
  | .wstoreSet _ _ _ => none
  | .wstoreAnd _ _ _ => none
  | .wstoreOr _ _ _ => none
  | .wstoreXor _ _ _ => none

/-- The windows a command names, whose bits or bounds it reads (R53; spec/10_state.md, section 2); a descriptor
that `DSET`, `DVIEW` or `DIMM` only writes is not among them. -/
def namedWindows : Instr → List (Fin 16)
  | .nop => []
  | .dset _ _ _ _ => []
  | .dview _ r _ _ => [r]
  | .dimm _ r => [r]
  | .size d => [d]
  | .mrd _ => []
  | .mwr _ _ => []
  | .getbit d _ => [d]
  | .getbits d _ _ => [d]
  | .rset d _ _ => [d]
  | .rclr d _ _ => [d]
  | .rxor d _ _ => [d]
  | .wbitSet d _ _ => [d]
  | .wbitAnd d _ _ => [d]
  | .wbitOr d _ _ => [d]
  | .wbitXor d _ _ => [d]
  | .wbitsSet d _ _ _ => [d]
  | .wbitsAnd d _ _ _ => [d]
  | .wbitsOr d _ _ _ => [d]
  | .wbitsXor d _ _ _ => [d]
  | .wfillSet d _ => [d]
  | .wfillAnd d _ => [d]
  | .wfillOr d _ => [d]
  | .wfillXor d _ => [d]
  | .wrangeSet d _ _ _ => [d]
  | .wrangeAnd d _ _ _ => [d]
  | .wrangeOr d _ _ _ => [d]
  | .wrangeXor d _ _ _ => [d]
  | .wstoreSet d r _ => [d, r]
  | .wstoreAnd d r _ => [d, r]
  | .wstoreOr d r _ => [d, r]
  | .wstoreXor d r _ => [d, r]

end Sys2Proof.Machine
end

