-- ==== Sys2Proof/Machine/Spelling.lean ====
section
/-! DEFINITION. Spellings of commands: the kind-indexed forms the spec writes `WBIT.k`, `WBITS.k`, `WFILL.k`, `WRANGE.k`,
`WSTORE.k` (spec/00_scope.md R7), the range commands by their range op (R93), and the pseudo-commands with their expansions
(spec/30_encoding.md R60). -/

namespace Sys2Proof.Machine

/-- `WBIT.k Dd, i, b`: one of `wbitSet`, `wbitAnd`, `wbitOr`, `wbitXor`. -/
def wbit (k : Kind) (d : Fin 16) (a : Int) (b : Bool) : Instr :=
  match k with
  | .set => .wbitSet d a b
  | .and => .wbitAnd d a b
  | .or  => .wbitOr d a b
  | .xor => .wbitXor d a b

/-- `WBITS.k Dd, pos, len, V`: one of `wbitsSet`, `wbitsAnd`, `wbitsOr`, `wbitsXor`. -/
def wbits (k : Kind) (d : Fin 16) (a : Int) (len : Nat) (v : Word) : Instr :=
  match k with
  | .set => .wbitsSet d a len v
  | .and => .wbitsAnd d a len v
  | .or  => .wbitsOr d a len v
  | .xor => .wbitsXor d a len v

/-- `WFILL.k Dd, b`: one of `wfillSet`, `wfillAnd`, `wfillOr`, `wfillXor`. -/
def wfill (k : Kind) (d : Fin 16) (b : Bool) : Instr :=
  match k with
  | .set => .wfillSet d b
  | .and => .wfillAnd d b
  | .or  => .wfillOr d b
  | .xor => .wfillXor d b

/-- `WRANGE.k Dd, from, to, b`: one of `wrangeSet`, `wrangeAnd`, `wrangeOr`, `wrangeXor`. -/
def wrange (k : Kind) (d : Fin 16) (a e : Int) (b : Bool) : Instr :=
  match k with
  | .set => .wrangeSet d a e b
  | .and => .wrangeAnd d a e b
  | .or  => .wrangeOr d a e b
  | .xor => .wrangeXor d a e b

/-- `WSTORE.k Dd, Ds, pos`: one of `wstoreSet`, `wstoreAnd`, `wstoreOr`, `wstoreXor`. -/
def wstore (k : Kind) (d r : Fin 16) (a : Int) : Instr :=
  match k with
  | .set => .wstoreSet d r a
  | .and => .wstoreAnd d r a
  | .or  => .wstoreOr d r a
  | .xor => .wstoreXor d r a

/-- `RSET`, `RCLR`, `RXOR` by their range op: one of `rset`, `rclr`, `rxor`. -/
def rangeInstr (op : RangeOp) (d : Fin 16) (a e : Int) : Instr :=
  match op with
  | .set   => .rset d a e
  | .clear => .rclr d a e
  | .xor   => .rxor d a e

/-- The number of a kind, `opcode[1:0]` of a combinator command (R54). -/
def kindNumber (k : Kind) : BitVec 8 :=
  match k with
  | .set => 0
  | .and => 1
  | .or  => 2
  | .xor => 3

/-- The pseudo-commands of R60. -/
inductive Pseudo where
  | setbit (d : Fin 16) (a : Int) (b : Bool)
  | setbits (d : Fin 16) (a : Int) (len : Nat) (v : Word)
  | fill (d : Fin 16) (b : Bool)
  | clear (d : Fin 16)
  | flip (d : Fin 16)
  | copy (d r : Fin 16) (a : Int)
  | new (d : Fin 16) (a e : Int)
  deriving DecidableEq, Repr

/-- The commands a pseudo-command spells (R60). The spec does not say what `NEW` spells where `finish - start` does not fit
the signed field `B`. DESIGN CHOICE, unsafe (log entry 9): `expand` gives the exact integer, so that its `RCLR` is no
well-formed command and stands for no packet; the `DSET` before it fails for every such pair of 32-bit operands. -/
def expand : Pseudo → List Instr
  | .setbit d a b => [.wbitSet d a b]
  | .setbits d a len v => [.wbitsSet d a len v]
  | .fill d b => [.wfillSet d b]
  | .clear d => [.wfillSet d false]
  | .flip d => [.wfillXor d true]
  | .copy d r a => [.wstoreSet d r a]
  | .new d a e => [.dset d a e true, .rclr d 0 (e - a)]

end Sys2Proof.Machine
end

