-- ==== Sys2Proof/Machine/WordLevel.lean ====
section
/-! DEFINITION. The word-level algorithms by which the engine computes its primitives, as the spec transcribes them:
ReadSpan (spec/41_bit_access.md R81), ApplyRange (spec/42_range_algebra.md R91 with the two corrections of R92), WriteSpan
and the one-bit write (spec/43_combinator_bit_span.md R103, R102). The meanings use the per-bit primitives of `Ops`
(R80, R90, R103), and statements say that the two agree. No shift count here leaves `0 .. 63`. -/

namespace Sys2Proof.Machine

/-- R81: one word, or the low part of the first word and the high part of the second. -/
def State.readSpanWords (s : State) (a len : Nat) : Word :=
  let w := a / 64
  let o := a % 64
  if len = 0 then 0
  else if o + len ≤ 64 then (s.word w >>> o) &&& maskOf len
  else ((s.word w >>> o) ||| (s.word (w + 1) <<< (64 - o))) &&& maskOf len

/-- R103: `Comb` under the span's mask in one word or in two. -/
def State.writeSpanWords (s : State) (k : Kind) (a len : Nat) (v : Word) : State :=
  let w := a / 64
  let o := a % 64
  let vv := v &&& maskOf len
  if len = 0 then s
  else if o + len ≤ 64 then s.setWord w (combWord k (s.word w) (maskOf len <<< o) (vv <<< o))
  else
    let lo := 64 - o
    let s₁ := s.setWord w (combWord k (s.word w) (ones <<< o) (vv <<< o))
    s₁.setWord (w + 1) (combWord k (s₁.word (w + 1)) (maskOf (len - lo)) (vv >>> lo))

/-- R102 "in words of the memory": `WM[w] <- Comb(k, WM[w], 1 << o, b << o)`. -/
def State.writeBitWord (s : State) (k : Kind) (a : Nat) (b : Bool) : State :=
  s.setWord (a / 64) (combWord k (s.word (a / 64)) ((1 : Word) <<< (a % 64)) (wordOfBit b <<< (a % 64)))

/-- `frontMask = ONES << (from & 63)` (R91). -/
def frontMask (lo : Nat) : Word := ones <<< (lo % 64)

/-- `tailMask = ONES >>> (64 - (to - 64*t))` (R91; R92 (b) for the count). -/
def tailMask (hi : Nat) : Word := ones >>> (64 - (hi - 64 * ((hi - 1) / 64)))

/-- `for w in ...: WM[w] <- apply(op, WM[w], ONES)`, over the `n` words from `w` on (R91). -/
def State.rangeWhole (s : State) (op : RangeOp) : Nat → Nat → State
  | _, 0 => s
  | w, n + 1 => (s.setWord w (rangeWord op (s.word w) ones)).rangeWhole op (w + 1) n

/-- R91, entered only for `from < to` (R92 (a)). -/
def State.applyRangeWords (s : State) (op : RangeOp) (lo hi : Nat) : State :=
  if lo < hi then
    let f := lo / 64
    let t := (hi - 1) / 64
    if f = t then s.setWord f (rangeWord op (s.word f) (frontMask lo &&& tailMask hi))
    else
      let s₁ := s.setWord f (rangeWord op (s.word f) (frontMask lo))
      let s₂ := s₁.rangeWhole op (f + 1) (t - (f + 1))
      s₂.setWord t (rangeWord op (s₂.word t) (tailMask hi))
  else s

end Sys2Proof.Machine
end

