-- ==== Sys2Proof/Safety.lean ====
section
/-! DEFINITION. The terms statements use: the invariant of the engine, what it means that a command answers a next state,
and what a command leaves unchanged. -/

namespace Sys2Proof.Machine

/-- A descriptor of an engine of `n` words keeps R16: `0 <= start <= finish <= NBITS`. -/
abbrev Descriptor.legal (n : Nat) (w : Descriptor) : Prop := w.start ≤ w.finish ∧ w.finish ≤ 64 * n

/-- `RESP` as the commands leave it: `EndOfStream` is never produced (R143) and the value is 0 after an error (R14,
R140). -/
abbrev Resp.legal (r : Resp) : Prop := r.code ≠ .endOfStream ∧ (r.code ≠ .ok → r.val = 0)

/-- The invariant of the engine: `NWORDS` in the bounds of R4, `WM` in its canonical form, every descriptor legal (R16),
`RESP` legal. -/
abbrev State.inv (s : State) : Prop :=
  (1 ≤ s.nwords ∧ s.nwords ≤ Config.maxWords) ∧ Memory.wf s.nwords s.wm ∧
    (∀ d : Fin 16, (s.window d).legal s.nwords) ∧ s.resp.legal

/-- The model's own fields are as they were. -/
abbrev State.sameModel (s t : State) : Prop := t.nwords = s.nwords ∧ t.resets = s.resets ∧ t.port = s.port

/-- The descriptor file and the model's own fields are as they were: only `WM` and `RESP` may differ. -/
abbrev State.sameDescriptors (s t : State) : Prop := t.desc = s.desc ∧ s.sameModel t

/-- Every word of `WM` reads as it did. -/
abbrev State.sameWords (s t : State) : Prop := ∀ w, t.word w = s.word w

/-- Every bit of `WM` outside the absolute range `[lo, hi)` reads as it did. -/
abbrev State.sameBitsOutside (s t : State) (lo hi : Nat) : Prop := ∀ a, ¬ (lo ≤ a ∧ a < hi) → t.bit a = s.bit a

/-- The outcome is a next state in which `P` holds. -/
abbrev Completes (o : Host.Outcome State Fault Refusal) (P : State → Prop) : Prop := ∃ t, o = .next t ∧ P t

end Sys2Proof.Machine
end

