-- ==== Sys2Proof/Certificates/Slice0/Obligations.lean ====
section
/-! DEFINITION. The statements about the engine, each from the rules of spec/ its docstring names. "Answers" means that
`exec` or `step` gives a next state; a command that fails answers a next state in which only `RESP` differs (R141). -/

open Sys2Proof Sys2Proof.Machine

/-! ## Encoding (spec/30_encoding.md) -/

/-- R51, R52, R53, R59: decoding the packet of a well-formed command gives that command, with every operand at every
value its field admits. All 32 commands. -/
def Obligations.DecodeInvertsEncode : Prop :=
  ∀ i : Instr, i.wellFormed = true → decode (encode i) = .ok i

/-- R51, R52: whatever the packet, a command that is decoded from it has operands that fit their fields. -/
def Obligations.DecodeGivesWellFormed : Prop :=
  ∀ (p : Packet) (i : Instr), decode p = .ok i → i.wellFormed = true

/-- R55: decode is total; reserved bits are refused first, then an opcode that R53 does not list; every other packet is
the command of its opcode, which the step carries out; an undecodable packet raises InvalidArgument and changes nothing
else. -/
def Obligations.DecodeRefusesByName : Prop :=
  ∀ p : Packet,
    (rsvOf p ≠ 0 → decode p = .error .reservedBits) ∧
    (rsvOf p = 0 → opcodeOf p ∉ opcodes → decode p = .error (.noSuchCommand (opcodeOf p))) ∧
    (rsvOf p = 0 → opcodeOf p ∈ opcodes →
      ∃ i, decode p = .ok i ∧ i.opcode = opcodeOf p ∧
        ∀ (s : State) (rest : List HostEvent), s.port = .packet p :: rest → step s = exec i { s with port := rest }) ∧
    (∀ (s : State) (rest : List HostEvent) (e : DecodeError), s.port = .packet p :: rest → decode p = .error e →
      step s = .next { s with port := rest, resp := ⟨.invalidArgument, 0⟩ })

/-- R56: an operand field the command does not use has no effect on what is decoded, and the encoder writes zero there;
the reserved bits are the only others, and they are checked. -/
def Obligations.UnusedFieldsIgnored : Prop :=
  (∀ (p q : Packet) (i : Instr), decode p = .ok i → opcodeOf q = opcodeOf p → rsvOf q = 0 →
    (∀ f ∈ i.uses, fieldBits q f = fieldBits p f) → decode q = .ok i) ∧
  (∀ (i : Instr) (f : OperandField), f ∉ i.uses → fieldBits (encode i) f = 0)

/-- R58: a packet is the command of a row iff `CW0 & mask == match`, with `match` the row's opcode, so no packet is of
two rows; a packet that matches no row does not decode. -/
def Obligations.TableRowsSelectCommands : Prop :=
  ∀ p : Packet,
    (∀ c ∈ opcodes, p.cw0 &&& tableMask = c.setWidth 64 ↔ ∃ i, decode p = .ok i ∧ i.opcode = c) ∧
    ((∀ c ∈ opcodes, p.cw0 &&& tableMask ≠ c.setWidth 64) → ∃ e, decode p = .error e)

/-- R50: a 192-bit value is rebuilt from the three command words it is cut into, `CW0` lowest. -/
def Obligations.PacketIsItsBits : Prop :=
  ∀ x : BitVec 192, packetBits (packetOfBits x) = x ∧
    (∀ j, j < 64 → (packetOfBits x).cw0.getLsbD j = x.getLsbD j ∧
      (packetOfBits x).cw1.getLsbD j = x.getLsbD (64 + j) ∧ (packetOfBits x).cw2.getLsbD j = x.getLsbD (128 + j))

/-- R59 and the examples of R71, R84, R94, R104, R109, R121, R125, R132: packets the spec writes out, one or more of
each family, decode to the command they stand for. -/
def Obligations.WorkedPacketsDecode : Prop :=
  decode ⟨0x00000000000C0247, 0x0000000000000005, 0x0000000000000ABC⟩ = .ok (.wbitsXor 2 5 12 0xABC) ∧
  decode ⟨0x0000000000000010, 0x00000000FFFFFFFF, 0⟩ = .ok (.getbit 0 (-1)) ∧
  decode ⟨0x0000000000800001, 0x000000C80000003C, 0⟩ = .ok (.dset 0 60 200 true) ∧
  decode ⟨0x0000000000400011, 0, 0⟩ = .ok (.getbits 0 0 64) ∧
  decode ⟨0x0000000000000020, 0x0000008700000002, 0⟩ = .ok (.rset 0 2 135) ∧
  decode ⟨0x0000000000000040, 0x0000000000000001, 0⟩ = .ok (.wbitSet 0 1 false) ∧
  decode ⟨0x0000000000080045, 0x0000000000000002, 0x000000000000005A⟩ = .ok (.wbitsAnd 0 2 8 0x5A) ∧
  decode ⟨0x0000000000800048, 0, 0⟩ = .ok (.wfillSet 0 true) ∧
  decode ⟨0x000000000080004C, 0x0000000C00000002, 0⟩ = .ok (.wrangeSet 0 2 12 true) ∧
  decode ⟨0x0000000000001050, 0x0000000000000004, 0⟩ = .ok (.wstoreSet 0 1 4)

/-! ## The step, reset, and the invariant -/

/-- R40, R55: when the packet the host issues next decodes to a well-formed command, the step is that command, carried
out on the state with the packet taken off the port. With nothing issued the step leaves the state as it is (log entry
3). -/
def Obligations.StepRunsDecodedCommand : Prop :=
  (∀ (s : State) (p : Packet) (rest : List HostEvent) (i : Instr),
    s.port = .packet p :: rest → decode p = .ok i → step s = exec i { s with port := rest }) ∧
  (∀ s : State, s.port = [] → step s = .next s)

/-- R19, R20, R160: the reset event puts every descriptor at `(0, 0, 0)` and `RESP` at `(0, 0)`; every word of `WM` is
unspecified anew, a free value (log entry 1); the size of the engine and what the host will issue stay (log entries 2,
3). -/
def Obligations.ResetEventValues : Prop :=
  ∀ (s : State) (rest : List HostEvent), s.port = .reset :: rest →
    Completes (step s) fun t =>
      (∀ d, t.window d = ⟨0, 0, false⟩) ∧ t.resp = ⟨.ok, 0⟩ ∧
      (∀ w, t.word w = Config.powerUpWord (s.resets + 1) w) ∧ t.nwords = s.nwords ∧ t.port = rest

/-- R19: the values after reset, for an engine of any size, and what follows for the commands: every window is empty, so
every `GETBIT`, every `WBIT.k` and every span or range command with a non-empty span fails InvalidArgument, and every
write-class command fails. -/
def Obligations.ResetWindowsRefuse : Prop :=
  ∀ n : Nat, let s := State.resetOf n
    (∀ d, s.window d = ⟨0, 0, false⟩) ∧ s.resp = ⟨.ok, 0⟩ ∧ (∀ w, s.word w = Config.powerUpWord 0 w) ∧
    (∀ d a, exec (.getbit d a) s = .next (s.raise .invalidArgument)) ∧
    (∀ k d a b, exec (wbit k d a b) s = .next (s.raise .invalidArgument)) ∧
    (∀ d a len, 0 < len → exec (.getbits d a len) s = .next (s.raise .invalidArgument)) ∧
    (∀ k d a len v, 0 < len → exec (wbits k d a len v) s = .next (s.raise .invalidArgument)) ∧
    (∀ op d a e, a < e → exec (rangeInstr op d a e) s = .next (s.raise .invalidArgument)) ∧
    (∀ k d a e b, a < e → exec (wrange k d a e b) s = .next (s.raise .invalidArgument)) ∧
    (∀ i d, writeTarget i = some d →
      exec i s = .next (s.raise .invalidArgument) ∨ exec i s = .next (s.raise .invalidState))

/-- The invariant of spec/10_state.md section 2 (which the spec derives from its rules on reset and on the descriptor
commands) holds right after reset, for every admitted size; `State.reset`, whose size is the model's choice (log entry
2), is one of these. -/
def Obligations.ResetMeetsInvariant : Prop :=
  (∀ n, 1 ≤ n → n ≤ Config.maxWords → (State.resetOf n).inv) ∧ State.reset.inv

/-- Every step keeps the invariant: `NWORDS` in its bounds, `WM` in canonical form (the model's own, log entry 1), `0 <=
start <= finish <= NBITS` for all 16 descriptors (spec/10_state.md section 2, an inference the spec marks as derived),
no `EndOfStream`, and value 0 after an error (spec/60_exceptions.md section 1). Whatever the host issues, reset
included. -/
def Obligations.StepKeepsInvariant : Prop :=
  ∀ s t : State, s.inv → step s = .next t → t.inv

/-- R55, R167, R169: from every state that meets the invariant, whatever the host issues, the step answers a next state:
no fault, no refusal, no stuck state. -/
def Obligations.StepAlwaysAnswers : Prop :=
  ∀ s : State, s.inv → ∃ t, step s = .next t

/-! ## Whole-machine rules -/

/-- "Descriptors change only by `DSET`, `DVIEW`, `DIMM`" (spec/20_memory.md section 2, which the spec marks as derived):
every other command leaves the descriptor file as it is, and those three change only the descriptor they name. No
command changes the engine's size, its count of resets or the port. -/
def Obligations.DescriptorsChangeOnlyByTheirCommands : Prop :=
  ∀ (i : Instr) (s t : State), exec i s = .next t →
    s.sameModel t ∧
    (descriptorTarget i = none → t.desc = s.desc) ∧
    (∀ d, descriptorTarget i = some d → ∀ x, x ≠ d → t.window x = s.window x)

/-- Only the write-class commands and `MWR` change `WM`; `MWR` changes one word (the table of words written,
spec/20_memory.md section 5, and its "Reading has no side effect", which the spec marks as derived). -/
def Obligations.MemoryChangesOnlyByWriteCommands : Prop :=
  ∀ (i : Instr) (s t : State), exec i s = .next t →
    (writeTarget i = none → wordTarget i = none → t.wm = s.wm) ∧
    (∀ a, wordTarget i = some a → ∀ w, w ≠ a.toNat → t.word w = s.word w)

/-- R39 (a): whatever a write-class command does, no bit outside its target window changes. -/
def Obligations.WritesStayInsideWindow : Prop :=
  ∀ (i : Instr) (s t : State) (d : Fin 16), s.inv → writeTarget i = some d → exec i s = .next t →
    s.sameBitsOutside t (s.window d).start (s.window d).finish

/-- R39 (a) ("no bit outside the window influences a result"): two states with the same descriptors and size that agree
on the bits of the windows a command names get from it the same response and the same descriptors, and agree on those
windows again. `MRD`, which reads `WM` through no window, is the one exception. -/
def Obligations.ResultsDependOnlyOnNamedWindows : Prop :=
  ∀ (i : Instr) (s t u : State), s.inv → t.desc = s.desc → t.nwords = s.nwords → (∀ a, i ≠ .mrd a) →
    (∀ x ∈ namedWindows i, ∀ a, (s.window x).start ≤ a → a < (s.window x).finish → t.bit a = s.bit a) →
    exec i s = .next u →
    Completes (exec i t) fun v => v.resp = u.resp ∧ v.desc = u.desc ∧
      ∀ x ∈ namedWindows i, ∀ a, (s.window x).start ≤ a → a < (s.window x).finish → v.bit a = u.bit a

/-- R141: a command that ends with an error changes nothing but `RESP`, which holds the code and 0, and the engine takes
any next command as if nothing had happened. -/
def Obligations.ErrorsArePrecise : Prop :=
  ∀ (i : Instr) (s t : State), exec i s = .next t → t.resp.code ≠ .ok →
    t = { s with resp := ⟨t.resp.code, 0⟩ } ∧ ∀ j : Instr, exec j t = exec j s

/-- R14, R15: no command reads `RESP`, so what a command does and answers does not depend on any earlier outcome. -/
def Obligations.NoCommandReadsResponse : Prop :=
  ∀ (i : Instr) (s : State) (r : Resp), exec i { s with resp := r } = exec i s

/-- R142, R145, with the checks of each command's own rule: a packet reports the first check that fails in the order
decode, argument checks, mutability gate; the first two raise InvalidArgument, the gate InvalidState, and it looks only
at the command's own target, whether or not a bit would change. A command none of whose checks fails ends `OK`, in every
state that meets the invariant. All 32 commands. -/
def Obligations.ChecksAndTheirOrder : Prop :=
  (∀ (s : State) (p : Packet) (rest : List HostEvent), s.port = .packet p :: rest →
    rsvOf p ≠ 0 ∨ opcodeOf p ∉ opcodes → step s = .next ({ s with port := rest }.raise .invalidArgument)) ∧
  ∀ (i : Instr) (s : State),
    (∀ c, argumentCheck s i = some c → c = .invalidArgument ∧ exec i s = .next (s.raise .invalidArgument)) ∧
    (∀ d, argumentCheck s i = none → writeTarget i = some d → (s.window d).mutable = false →
      exec i s = .next (s.raise .invalidState)) ∧
    (s.inv → argumentCheck s i = none → (∀ d, writeTarget i = some d → (s.window d).mutable = true) →
      Completes (exec i s) fun t => t.resp.code = .ok)

/-- R143: no command produces `EndOfStream`, in any state; a `WSTORE` whose source does not fit ends with
InvalidArgument. -/
def Obligations.EndOfStreamNeverProduced : Prop :=
  (∀ (i : Instr) (s t : State), exec i s = .next t → t.resp.code ≠ .endOfStream) ∧
  (∀ (k : Kind) (d r : Fin 16) (a : Int) (s : State), a + (s.window r).size > (s.window d).size →
    exec (wstore k d r a) s = .next (s.raise .invalidArgument))

/-! ## Word storage (spec/40_word_storage.md) -/

/-- R70: `NOP` writes `(0, 0)` to `RESP` and changes nothing else, in every state; its unused fields are ignored and its
reserved bits are checked. -/
def Obligations.NopWritesOnlyResponse : Prop :=
  encode .nop = ⟨0, 0, 0⟩ ∧
  (∀ p : Packet, opcodeOf p = 0 → rsvOf p = 0 → decode p = .ok .nop) ∧
  (∀ p : Packet, opcodeOf p = 0 → rsvOf p ≠ 0 → decode p = .error .reservedBits) ∧
  ∀ s : State, exec .nop s = .next { s with resp := ⟨.ok, 0⟩ }

/-- R71: `DSET` defines the window if `0 <= start <= finish <= NBITS`, whatever the descriptor held, and touches neither
`WM` nor another descriptor; else it raises InvalidArgument. -/
def Obligations.DsetDefinesWindow : Prop :=
  ∀ (d : Fin 16) (a e : Int) (b : Bool) (s : State),
    opcodeOf (encode (.dset d a e b)) = 0x01 ∧
    encode (.dset 0 60 200 true) = ⟨0x0000000000800001, 0x000000C80000003C, 0⟩ ∧
    (a < 0 ∨ e < a ∨ e > ((64 * s.nwords : Nat) : Int) → exec (.dset d a e b) s = .next (s.raise .invalidArgument)) ∧
    (0 ≤ a → a ≤ e → e ≤ ((64 * s.nwords : Nat) : Int) → Completes (exec (.dset d a e b) s) fun t =>
      ((t.window d).start : Int) = a ∧ ((t.window d).finish : Int) = e ∧ (t.window d).mutable = b ∧
      (∀ x, x ≠ d → t.window x = s.window x) ∧ t.wm = s.wm ∧ t.resp = ⟨.ok, 0⟩ ∧ s.sameModel t)

/-- R72: `DVIEW` narrows the source's window to its logical range `[from, to)`, with the source's mutability; the source
is read before the target is written (`d = s` allowed), and no bit of `WM` is copied. -/
def Obligations.DviewNarrowsWindow : Prop :=
  ∀ (d r : Fin 16) (a e : Int) (s : State),
    opcodeOf (encode (.dview d r a e)) = 0x02 ∧
    encode (.dview 1 0 4 68) = ⟨0x0000000000000102, 0x0000004400000004, 0⟩ ∧
    (a < 0 ∨ e > (s.window r).size ∨ a > e → exec (.dview d r a e) s = .next (s.raise .invalidArgument)) ∧
    (0 ≤ a → a ≤ e → e ≤ (s.window r).size → Completes (exec (.dview d r a e) s) fun t =>
      ((t.window d).start : Int) = (s.window r).start + a ∧ ((t.window d).finish : Int) = (s.window r).start + e ∧
      (t.window d).mutable = (s.window r).mutable ∧
      (∀ x, x ≠ d → t.window x = s.window x) ∧ t.wm = s.wm ∧ t.resp = ⟨.ok, 0⟩ ∧ s.sameModel t)

/-- R73: `DIMM` makes the target an immutable view of the source's whole window, in every state; `d = s` allowed. -/
def Obligations.DimmMakesImmutableView : Prop :=
  ∀ (d r : Fin 16) (s : State),
    opcodeOf (encode (.dimm d r)) = 0x03 ∧ encode (.dimm 2 0) = ⟨0x0000000000000203, 0, 0⟩ ∧
    Completes (exec (.dimm d r) s) fun t =>
      t.window d = ⟨(s.window r).start, (s.window r).finish, false⟩ ∧
      (∀ x, x ≠ d → t.window x = s.window x) ∧ t.wm = s.wm ∧ t.resp = ⟨.ok, 0⟩ ∧ s.sameModel t

/-- R73 with the properties it quotes: after `DIMM Dd, Ds` every write-class command through `d` fails InvalidArgument
or InvalidState and changes nothing but `RESP`, while a bit written through the source is the bit read through `d`. -/
def Obligations.ImmutableViewSeesButCannotWrite : Prop :=
  ∀ (d r : Fin 16) (s t : State), s.inv → exec (.dimm d r) s = .next t →
    (∀ i, writeTarget i = some d →
      exec i t = .next (t.raise .invalidArgument) ∨ exec i t = .next (t.raise .invalidState)) ∧
    (∀ (a : Int) (b : Bool) (u : State), d ≠ r → 0 ≤ a → a < (s.window r).size → exec (.wbitSet r a b) t = .next u →
      u.resp.code = .ok → exec (.getbit d a) u = .next { u with resp := ⟨.ok, wordOfBit b⟩ })

/-- R74: `SIZE` answers `finish - start`, which is at most `NBITS` and so below `2^31`; mutability does not matter. -/
def Obligations.SizeAnswersFinishMinusStart : Prop :=
  ∀ (d : Fin 16) (s : State), s.inv →
    opcodeOf (encode (.size d)) = 0x04 ∧ encode (.size 0) = ⟨0x0000000000000004, 0, 0⟩ ∧
    Completes (exec (.size d) s) fun t =>
      t.resp.code = .ok ∧ t.resp.val.toNat = (s.window d).finish - (s.window d).start ∧
      t.resp.val.toNat ≤ 64 * s.nwords ∧ t.resp.val.toNat < 2 ^ 31 ∧ t = { s with resp := t.resp }

/-- R75: `MRD` answers the word if `0 <= A < NWORDS`, through no descriptor, and changes nothing but `RESP`. -/
def Obligations.MrdReadsWord : Prop :=
  ∀ (a : Int) (s : State),
    opcodeOf (encode (.mrd a)) = 0x08 ∧ encode (.mrd 1) = ⟨0x0000000000000008, 0x0000000000000001, 0⟩ ∧
    (a < 0 ∨ a ≥ (s.nwords : Int) → exec (.mrd a) s = .next (s.raise .invalidArgument)) ∧
    (0 ≤ a → a < (s.nwords : Int) → exec (.mrd a) s = .next { s with resp := ⟨.ok, s.word a.toNat⟩ })

/-- R76, R21: `MWR` writes the word if `0 <= A < NWORDS`, gated by no descriptor; every other word, hence every bit
outside it, is as before, and the bits of the word are those of `V` for every later read. -/
def Obligations.MwrWritesWord : Prop :=
  ∀ (a : Int) (v : Word) (s : State),
    opcodeOf (encode (.mwr a v)) = 0x09 ∧
    encode (.mwr 0 0xF000000000000000) = ⟨0x0000000000000009, 0, 0xF000000000000000⟩ ∧
    (a < 0 ∨ a ≥ (s.nwords : Int) → exec (.mwr a v) s = .next (s.raise .invalidArgument)) ∧
    (0 ≤ a → a < (s.nwords : Int) → Completes (exec (.mwr a v) s) fun t =>
      t.word a.toNat = v ∧ (∀ w, w ≠ a.toNat → t.word w = s.word w) ∧
      (∀ j, j < 64 → t.bit (64 * a.toNat + j) = v.getLsbD j) ∧
      s.sameBitsOutside t (64 * a.toNat) (64 * a.toNat + 64) ∧ t.resp = ⟨.ok, 0⟩ ∧ s.sameDescriptors t)

/-! ## Bit access, the read side (spec/41_bit_access.md) -/

/-- R83, R31: `GETBIT` answers the bit at `D[d].start + A` for the indices `0 .. size - 1`, immutable or not; any other
index raises InvalidArgument. -/
def Obligations.GetbitReadsWindowBit : Prop :=
  ∀ (d : Fin 16) (a : Int) (s : State), let w := s.window d
    opcodeOf (encode (.getbit d a)) = 0x10 ∧ encode (.getbit 0 5) = ⟨0x0000000000000010, 0x0000000000000005, 0⟩ ∧
    (a < 0 ∨ a ≥ w.size → exec (.getbit d a) s = .next (s.raise .invalidArgument)) ∧
    (s.inv → 0 ≤ a → a < w.size → (w.abs a : Int) = w.start + a ∧
      exec (.getbit d a) s = .next { s with resp := ⟨.ok, wordOfBit (s.bit (w.abs a))⟩ })

/-- R84, R80: `GETBITS` answers the span bit by bit, the lowest index least significant and zeros above `len`; legal for
`len <= 64` and a span inside the window, `len = 0` at `pos = size` included, immutable or not. -/
def Obligations.GetbitsReadsSpan : Prop :=
  ∀ (d : Fin 16) (a : Int) (len : Nat) (s : State), let w := s.window d
    opcodeOf (encode (.getbits d a len)) = 0x11 ∧ encode (.getbits 0 0 64) = ⟨0x0000000000400011, 0, 0⟩ ∧
    (len > 64 ∨ a < 0 ∨ a + len > w.size → exec (.getbits d a len) s = .next (s.raise .invalidArgument)) ∧
    (s.inv → len ≤ 64 → 0 ≤ a → a + len ≤ w.size → Completes (exec (.getbits d a len) s) fun t =>
      (w.abs a : Int) = w.start + a ∧ t.resp.code = .ok ∧
      (∀ j, j < 64 → t.resp.val.getLsbD j = (decide (j < len) && s.bit (w.abs a + j))) ∧ t = { s with resp := t.resp })

/-- R80 and the algorithm of spec/41_bit_access.md section 1, whose agreement with it the spec marks as derived: the
word-level algorithm reads the span of R80 bit for bit, for every offset and every length up to 64; in the two-word case
both shift counts lie in `1 .. 63` and the second word exists. -/
def Obligations.ReadSpanAlgorithmAgrees : Prop :=
  ∀ (s : State) (a len : Nat), len ≤ 64 →
    s.readSpanWords a len = s.readSpan a len ∧
    (∀ j, j < 64 → (s.readSpanWords a len).getLsbD j = (decide (j < len) && s.bit (a + j))) ∧
    (a % 64 + len > 64 → a + len ≤ 64 * s.nwords → 1 ≤ a % 64 ∧ 64 - a % 64 ≤ 63 ∧ a / 64 + 1 < s.nwords)

/-! ## Range algebra (spec/42_range_algebra.md) -/

/-- R93, R94, R95, R96: `RSET`, `RCLR`, `RXOR` set, clear, complement the logical bits `from .. to - 1` and no other
bit, an empty range none; arguments first, then the gate, also for an empty range. -/
def Obligations.RangeCommandsActOnRange : Prop :=
  ∀ (op : RangeOp) (d : Fin 16) (a e : Int) (s : State), let w := s.window d
    opcodeOf (encode (.rset d a e)) = 0x20 ∧ opcodeOf (encode (.rclr d a e)) = 0x21 ∧
    opcodeOf (encode (.rxor d a e)) = 0x22 ∧
    encode (.rset 0 2 135) = ⟨0x0000000000000020, 0x0000008700000002, 0⟩ ∧
    encode (.rclr 0 4 68) = ⟨0x0000000000000021, 0x0000004400000004, 0⟩ ∧
    encode (.rxor 0 6 10) = ⟨0x0000000000000022, 0x0000000A00000006, 0⟩ ∧
    (a < 0 ∨ e > w.size ∨ a > e → exec (rangeInstr op d a e) s = .next (s.raise .invalidArgument)) ∧
    (0 ≤ a → a ≤ e → e ≤ w.size → w.mutable = false →
      exec (rangeInstr op d a e) s = .next (s.raise .invalidState)) ∧
    (s.inv → 0 ≤ a → a ≤ e → e ≤ w.size → w.mutable = true → Completes (exec (rangeInstr op d a e) s) fun t =>
      (w.abs a : Int) = w.start + a ∧ (w.abs e : Int) = w.start + e ∧
      (∀ x, w.abs a ≤ x → x < w.abs e → t.bit x = rangeBit op (s.bit x)) ∧
      s.sameBitsOutside t (w.abs a) (w.abs e) ∧ t.resp = ⟨.ok, 0⟩ ∧ s.sameDescriptors t)

/-- R90 and the algorithm of spec/42_range_algebra.md section 1, whose agreement with it the spec marks as derived: the
front mask, tail mask and whole-word fill algorithm leaves in every word what the per-bit primitive leaves, changes the
bits of the range as R90 says and no other, the empty range included, touches the words `f .. t` only, and shifts by
counts inside `0 .. 63`. -/
def Obligations.ApplyRangeAlgorithmAgrees : Prop :=
  ∀ (s : State) (op : RangeOp) (lo hi : Nat),
    (∀ w, (s.applyRangeWords op lo hi).word w = (s.applyRange op lo hi).word w) ∧
    (∀ x, (s.applyRangeWords op lo hi).bit x = if lo ≤ x ∧ x < hi then rangeBit op (s.bit x) else s.bit x) ∧
    (∀ w, w < lo / 64 ∨ (hi - 1) / 64 < w → (s.applyRangeWords op lo hi).word w = s.word w) ∧
    (lo < hi → lo / 64 ≤ (hi - 1) / 64 ∧ lo - 64 * (lo / 64) ≤ 63 ∧
      1 ≤ hi - 64 * ((hi - 1) / 64) ∧ hi - 64 * ((hi - 1) / 64) ≤ 64)

/-- The idempotence properties of spec/42_range_algebra.md section 1 (for CLEAR the spec marks its own as derived):
setting twice is setting once, clearing twice is clearing once, complementing twice is nothing, for every range, the
empty one included. -/
def Obligations.RangeOpsIdempotence : Prop :=
  ∀ (s : State) (lo hi w : Nat),
    ((s.applyRange .set lo hi).applyRange .set lo hi).word w = (s.applyRange .set lo hi).word w ∧
    ((s.applyRange .clear lo hi).applyRange .clear lo hi).word w = (s.applyRange .clear lo hi).word w ∧
    ((s.applyRange .xor lo hi).applyRange .xor lo hi).word w = s.word w

/-! ## The combinator on a bit and on a span (spec/43_combinator_bit_span.md) -/

/-- R100, and the word formulas of spec/43_combinator_bit_span.md section 1, which the spec marks as derived: bit `j` of
`Comb(k, w, m, d)` is `comb(k, w[j], d[j])` under the mask and `w[j]` outside it, and `comb` has the table of R100: SET
overwrites, AND, OR and XOR are the bit operations. -/
def Obligations.CombineWordIsPerBit : Prop :=
  (∀ old new : Bool, comb .set old new = new ∧ comb .and old new = (old && new) ∧ comb .or old new = (old || new) ∧
    comb .xor old new = (old ^^ new)) ∧
  (∀ (k : Kind) (w m d : Word) (j : Nat), j < 64 →
    (combWord k w m d).getLsbD j = if m.getLsbD j then comb k (w.getLsbD j) (d.getLsbD j) else w.getLsbD j)

/-- R102, R104, R105, R106, R107: `WBIT.SET`, `WBIT.AND`, `WBIT.OR`, `WBIT.XOR` combine the one bit at `D[d].start + A`
with `b`, in words `Comb(k, WM[w], 1 << o, b << o)`, and change no other bit; the gate applies also where nothing would
change. -/
def Obligations.WbitCombinesOneBit : Prop :=
  ∀ (k : Kind) (d : Fin 16) (a : Int) (b : Bool) (s : State), let w := s.window d
    opcodeOf (encode (wbit k d a b)) = 0x40 + kindNumber k ∧
    encode (.wbitSet 0 1 false) = ⟨0x0000000000000040, 0x0000000000000001, 0⟩ ∧
    encode (.wbitAnd 0 1 false) = ⟨0x0000000000000041, 0x0000000000000001, 0⟩ ∧
    encode (.wbitAnd 0 1 true) = ⟨0x0000000000800041, 0x0000000000000001, 0⟩ ∧
    encode (.wbitOr 0 0 true) = ⟨0x0000000000800042, 0, 0⟩ ∧
    encode (.wbitXor 0 3 true) = ⟨0x0000000000800043, 0x0000000000000003, 0⟩ ∧
    (a < 0 ∨ a ≥ w.size → exec (wbit k d a b) s = .next (s.raise .invalidArgument)) ∧
    (0 ≤ a → a < w.size → w.mutable = false → exec (wbit k d a b) s = .next (s.raise .invalidState)) ∧
    (s.inv → 0 ≤ a → a < w.size → w.mutable = true → Completes (exec (wbit k d a b) s) fun t =>
      (w.abs a : Int) = w.start + a ∧ t.bit (w.abs a) = comb k (s.bit (w.abs a)) b ∧
      s.sameBitsOutside t (w.abs a) (w.abs a + 1) ∧
      t.word (w.abs a / 64) =
        combWord k (s.word (w.abs a / 64)) ((1 : Word) <<< (w.abs a % 64)) (wordOfBit b <<< (w.abs a % 64)) ∧
      t.resp = ⟨.ok, 0⟩ ∧ s.sameDescriptors t)

/-- R112, R108, R109, R110, R111: `WBITS.SET`, `WBITS.AND`, `WBITS.OR`, `WBITS.XOR` combine bit `j` of `V` into logical
bit `pos + j` for `j < len`; the bits of `V` from `len` up have no effect, no other bit of `WM` changes; `len = 0` is
legal up to `pos = size` and still gated. -/
def Obligations.WbitsCombinesSpan : Prop :=
  ∀ (k : Kind) (d : Fin 16) (a : Int) (len : Nat) (v : Word) (s : State), let w := s.window d
    opcodeOf (encode (wbits k d a len v)) = 0x44 + kindNumber k ∧
    encode (.wbitsSet 0 2 8 0x5A) = ⟨0x0000000000080044, 0x0000000000000002, 0x000000000000005A⟩ ∧
    encode (.wbitsAnd 0 2 8 0x5A) = ⟨0x0000000000080045, 0x0000000000000002, 0x000000000000005A⟩ ∧
    encode (.wbitsOr 0 2 8 0x5A) = ⟨0x0000000000080046, 0x0000000000000002, 0x000000000000005A⟩ ∧
    encode (.wbitsXor 0 2 8 0x5A) = ⟨0x0000000000080047, 0x0000000000000002, 0x000000000000005A⟩ ∧
    (len > 64 ∨ a < 0 ∨ a + len > w.size → exec (wbits k d a len v) s = .next (s.raise .invalidArgument)) ∧
    (len ≤ 64 → 0 ≤ a → a + len ≤ w.size → w.mutable = false →
      exec (wbits k d a len v) s = .next (s.raise .invalidState)) ∧
    (s.inv → len ≤ 64 → 0 ≤ a → a + len ≤ w.size → w.mutable = true → Completes (exec (wbits k d a len v) s) fun t =>
      (w.abs a : Int) = w.start + a ∧
      (∀ j, j < len → t.bit (w.abs a + j) = comb k (s.bit (w.abs a + j)) (v.getLsbD j)) ∧
      s.sameBitsOutside t (w.abs a) (w.abs a + len) ∧ t.resp = ⟨.ok, 0⟩ ∧ s.sameDescriptors t)

/-- The span write of spec/43_combinator_bit_span.md section 3, whose algorithm the spec marks as derived: the one-word
and two-word algorithm leaves in every word what the per-bit write leaves, for every kind, offset, value and length up
to 64; in the two-word case its shift counts and the length of its second part lie in `1 .. 63`. -/
def Obligations.WriteSpanAlgorithmAgrees : Prop :=
  ∀ (s : State) (k : Kind) (a len : Nat) (v : Word), len ≤ 64 →
    (∀ w, (s.writeSpanWords k a len v).word w = (s.writeSpan k a len v).word w) ∧
    (∀ x, (s.writeSpanWords k a len v).bit x =
      if a ≤ x ∧ x < a + len then comb k (s.bit x) (v.getLsbD (x - a)) else s.bit x) ∧
    (a % 64 + len > 64 → 1 ≤ a % 64 ∧ a % 64 ≤ 63 ∧ 1 ≤ len - (64 - a % 64) ∧ len - (64 - a % 64) ≤ 63)

/-- The laws of spec/43_combinator_bit_span.md section 4, which the spec marks as derived: a span or bit written with
SET is read back; `WBIT.k` has the effect of `WBITS.k` with length 1; AND with ones, OR and XOR with zeros change no
bit. -/
def Obligations.SpanWriteLaws : Prop :=
  (∀ (d : Fin 16) (a : Int) (len : Nat) (v : Word) (s t : State), s.inv → exec (.wbitsSet d a len v) s = .next t →
    t.resp.code = .ok → exec (.getbits d a len) t = .next { t with resp := ⟨.ok, v &&& maskOf len⟩ }) ∧
  (∀ (d : Fin 16) (a : Int) (b : Bool) (s t : State), s.inv → exec (.wbitSet d a b) s = .next t →
    t.resp.code = .ok → exec (.getbit d a) t = .next { t with resp := ⟨.ok, wordOfBit b⟩ }) ∧
  (∀ (k : Kind) (d : Fin 16) (a : Int) (b : Bool) (s : State),
    exec (wbit k d a b) s = exec (wbits k d a 1 (wordOfBit b)) s) ∧
  (∀ (d : Fin 16) (a : Int) (len : Nat) (s t : State),
    exec (.wbitsAnd d a len ones) s = .next t ∨ exec (.wbitsOr d a len 0) s = .next t ∨
      exec (.wbitsXor d a len 0) s = .next t → s.sameWords t)

/-- View transparency (spec/43_combinator_bit_span.md section 4, which the spec marks as derived): with `D[v]` made by
`DVIEW Dv, Ds, a, c`, a bit or span written or read at logical index `i` of `v` is the one at logical index `a + i` of
`s`: the two commands answer the same. -/
def Obligations.ViewTransparency : Prop :=
  ∀ (v r : Fin 16) (a c i : Int) (s t : State), v ≠ r → exec (.dview v r a c) s = .next t → t.resp.code = .ok →
    0 ≤ i → i < c - a →
    (∀ (k : Kind) (b : Bool), exec (wbit k v i b) t = exec (wbit k r (a + i) b) t) ∧
    exec (.getbit v i) t = exec (.getbit r (a + i)) t ∧
    (∀ (k : Kind) (len : Nat) (x : Word), i + len ≤ c - a →
      exec (wbits k v i len x) t = exec (wbits k r (a + i) len x) t ∧
      exec (.getbits v i len) t = exec (.getbits r (a + i) len) t)

/-! ## The combinator with a constant and with a store (spec/44_combinator_fill_range_store.md) -/

/-- R120: the table `Rat`, whole, is `comb` read column by column: combining with the constant `b` is the range op of
the table, or leaves the bit as it is where the table says none; there `WFILL.k` and `WRANGE.k` are still checked in
full, the gate included, and then touch no word. -/
def Obligations.RationalisationIsCombine : Prop :=
  (rationalise .set false = some .clear ∧ rationalise .set true = some .set ∧
    rationalise .and false = some .clear ∧ rationalise .and true = none ∧
    rationalise .or false = none ∧ rationalise .or true = some .set ∧
    rationalise .xor false = none ∧ rationalise .xor true = some .xor) ∧
  (∀ (k : Kind) (b old : Bool),
    (∀ op, rationalise k b = some op → comb k old b = rangeBit op old) ∧ (rationalise k b = none → comb k old b = old)) ∧
  (∀ (k : Kind) (d : Fin 16) (b : Bool) (s : State), rationalise k b = none →
    exec (wfill k d b) s = .next (if (s.window d).mutable then s.done 0 else s.raise .invalidState) ∧
    ∀ a e : Int, exec (wrange k d a e b) s =
      if 0 ≤ a ∧ a ≤ e ∧ e ≤ (s.window d).size then
        .next (if (s.window d).mutable then s.done 0 else s.raise .invalidState)
      else .next (s.raise .invalidArgument))

/-- R137, R121, R122, R123, R124: `WFILL.SET`, `WFILL.AND`, `WFILL.OR`, `WFILL.XOR` combine every bit of the window with
`b` and no bit outside it; there is no argument check; an immutable window raises InvalidState, empty or not. -/
def Obligations.WfillCombinesWindow : Prop :=
  ∀ (k : Kind) (d : Fin 16) (b : Bool) (s : State), let w := s.window d
    opcodeOf (encode (wfill k d b)) = 0x48 + kindNumber k ∧
    encode (.wfillSet 0 true) = ⟨0x0000000000800048, 0, 0⟩ ∧ encode (.wfillSet 0 false) = ⟨0x0000000000000048, 0, 0⟩ ∧
    encode (.wfillAnd 0 false) = ⟨0x0000000000000049, 0, 0⟩ ∧ encode (.wfillAnd 0 true) = ⟨0x0000000000800049, 0, 0⟩ ∧
    encode (.wfillOr 0 true) = ⟨0x000000000080004A, 0, 0⟩ ∧ encode (.wfillXor 0 true) = ⟨0x000000000080004B, 0, 0⟩ ∧
    (w.mutable = false → exec (wfill k d b) s = .next (s.raise .invalidState)) ∧
    (s.inv → w.mutable = true → Completes (exec (wfill k d b) s) fun t =>
      (∀ x, w.start ≤ x → x < w.finish → t.bit x = comb k (s.bit x) b) ∧
      s.sameBitsOutside t w.start w.finish ∧ t.resp = ⟨.ok, 0⟩ ∧ s.sameDescriptors t)

/-- R125, R126, R127, R128 (with the checks and the effect of R138): `WRANGE.SET`, `WRANGE.AND`, `WRANGE.OR`,
`WRANGE.XOR` combine the logical bits `from .. to - 1` with `b` and no other bit. -/
def Obligations.WrangeCombinesRange : Prop :=
  ∀ (k : Kind) (d : Fin 16) (a e : Int) (b : Bool) (s : State), let w := s.window d
    opcodeOf (encode (wrange k d a e b)) = 0x4C + kindNumber k ∧
    encode (.wrangeSet 0 2 12 true) = ⟨0x000000000080004C, 0x0000000C00000002, 0⟩ ∧
    encode (.wrangeSet 0 2 12 false) = ⟨0x000000000000004C, 0x0000000C00000002, 0⟩ ∧
    encode (.wrangeAnd 0 2 12 false) = ⟨0x000000000000004D, 0x0000000C00000002, 0⟩ ∧
    encode (.wrangeOr 0 2 12 true) = ⟨0x000000000080004E, 0x0000000C00000002, 0⟩ ∧
    encode (.wrangeXor 0 2 12 true) = ⟨0x000000000080004F, 0x0000000C00000002, 0⟩ ∧
    (a < 0 ∨ e > w.size ∨ a > e → exec (wrange k d a e b) s = .next (s.raise .invalidArgument)) ∧
    (0 ≤ a → a ≤ e → e ≤ w.size → w.mutable = false →
      exec (wrange k d a e b) s = .next (s.raise .invalidState)) ∧
    (s.inv → 0 ≤ a → a ≤ e → e ≤ w.size → w.mutable = true → Completes (exec (wrange k d a e b) s) fun t =>
      (w.abs a : Int) = w.start + a ∧ (w.abs e : Int) = w.start + e ∧
      (∀ x, w.abs a ≤ x → x < w.abs e → t.bit x = comb k (s.bit x) b) ∧
      s.sameBitsOutside t (w.abs a) (w.abs e) ∧ t.resp = ⟨.ok, 0⟩ ∧ s.sameDescriptors t)

/-- R138, the equivalences: over the whole window `WRANGE.k` is `WFILL.k`; SET 1 and OR 1 are `RSET`, SET 0 and AND 0
are `RCLR`, XOR 1 is `RXOR`: the two commands answer the same. -/
def Obligations.WrangeEquivalences : Prop :=
  (∀ (k : Kind) (d : Fin 16) (b : Bool) (s : State), s.inv →
    exec (wrange k d 0 (s.window d).size b) s = exec (wfill k d b) s) ∧
  (∀ (d : Fin 16) (a e : Int) (s : State),
    exec (.wrangeSet d a e true) s = exec (.rset d a e) s ∧ exec (.wrangeOr d a e true) s = exec (.rset d a e) s ∧
    exec (.wrangeSet d a e false) s = exec (.rclr d a e) s ∧ exec (.wrangeAnd d a e false) s = exec (.rclr d a e) s ∧
    exec (.wrangeXor d a e true) s = exec (.rxor d a e) s)

/-- R129, R130, R132, R133, R134, R135: `WSTORE.SET`, `WSTORE.AND`, `WSTORE.OR`, `WSTORE.XOR` combine source bit `j`, AS
IT WAS BEFORE THE COMMAND whether or not the two ranges overlap, into destination bit `pos + j`, for every source size;
no other bit changes; only the destination's mutability counts; `s = d` allowed. -/
def Obligations.WstoreCombinesWindow : Prop :=
  ∀ (k : Kind) (d r : Fin 16) (a : Int) (s : State), let w := s.window d; let u := s.window r
    opcodeOf (encode (wstore k d r a)) = 0x50 + kindNumber k ∧
    encode (.wstoreSet 0 1 4) = ⟨0x0000000000001050, 0x0000000000000004, 0⟩ ∧
    encode (.wstoreAnd 0 1 4) = ⟨0x0000000000001051, 0x0000000000000004, 0⟩ ∧
    encode (.wstoreOr 0 1 4) = ⟨0x0000000000001052, 0x0000000000000004, 0⟩ ∧
    encode (.wstoreXor 0 1 4) = ⟨0x0000000000001053, 0x0000000000000004, 0⟩ ∧
    (a < 0 ∨ a + u.size > w.size → exec (wstore k d r a) s = .next (s.raise .invalidArgument)) ∧
    (0 ≤ a → a + u.size ≤ w.size → w.mutable = false → exec (wstore k d r a) s = .next (s.raise .invalidState)) ∧
    (s.inv → 0 ≤ a → a + u.size ≤ w.size → w.mutable = true → Completes (exec (wstore k d r a) s) fun t =>
      (w.abs a : Int) = w.start + a ∧
      (∀ j, u.start + j < u.finish → t.bit (w.abs a + j) = comb k (s.bit (w.abs a + j)) (s.bit (u.start + j))) ∧
      s.sameBitsOutside t (w.abs a) (w.abs a + (u.finish - u.start)) ∧ t.resp = ⟨.ok, 0⟩ ∧ s.sameDescriptors t)

/-- The laws of spec/44_combinator_fill_range_store.md section 2, which the spec marks as derived: a source of at most
64 bits is a `GETBITS` followed by a `WBITS.k` of what it answered; after `WSTORE.SET` every span of the copy reads what
the source's span read before the command. -/
def Obligations.WstoreLaws : Prop :=
  (∀ (k : Kind) (d r : Fin 16) (a : Int) (s g : State), s.inv → (s.window r).finish - (s.window r).start ≤ 64 →
    exec (.getbits r 0 ((s.window r).finish - (s.window r).start)) s = .next g →
    exec (wstore k d r a) s = exec (wbits k d a ((s.window r).finish - (s.window r).start) g.resp.val) s) ∧
  (∀ (d r : Fin 16) (a j : Int) (m : Nat) (s t g : State), s.inv → exec (.wstoreSet d r a) s = .next t →
    t.resp.code = .ok → exec (.getbits r j m) s = .next g → g.resp.code = .ok →
    exec (.getbits d (a + j) m) t = .next { t with resp := g.resp })

/-- R60, R161: `NEW Dd, start, finish`, issued with bounds inside `WM`, defines a mutable window, clears exactly its
bits and changes no bit outside it, whatever `WM` held. -/
def Obligations.NewZeroFillsItsWindow : Prop :=
  ∀ (d : Fin 16) (a e : Int) (s : State), s.inv → 0 ≤ a → a ≤ e → e ≤ ((64 * s.nwords : Nat) : Int) →
    expand (.new d a e) = [.dset d a e true, .rclr d 0 (e - a)] ∧
    Completes (exec (.dset d a e true) s) fun t =>
      Completes (exec (.rclr d 0 (e - a)) t) fun u =>
        u.window d = ⟨a.toNat, e.toNat, true⟩ ∧ (∀ x, x ≠ d → u.window x = s.window x) ∧
        (∀ x, a.toNat ≤ x → x < e.toNat → u.bit x = false) ∧ s.sameBitsOutside u a.toNat e.toNat ∧
        u.resp = ⟨.ok, 0⟩ ∧ s.sameModel u
end

