-- ==== Sys2Proof/Laws/Bits.lean ====
section
/-! SUPPORT. Words built bit by bit, masks, and the per-bit reading of the word operations. -/

namespace Sys2Proof.Machine

theorem testBit_natOfBits (f : Nat → Bool) (n j i : Nat) :
    (natOfBits f j n).testBit i = (decide (i < n) && f (j + i)) := by
  induction n generalizing j i with
  | zero => simp [natOfBits]
  | succ n ih =>
    unfold natOfBits
    cases i with
    | zero => cases f j <;> simp [Nat.testBit_zero]
    | succ i =>
      have h : ((f j).toNat + 2 * natOfBits f (j + 1) n) / 2 = natOfBits f (j + 1) n := by
        cases f j <;> simp; omega
      rw [Nat.testBit_succ, h, ih]
      have e : j + 1 + i = j + (i + 1) := by omega
      simp [e]

/-- Bit `j` of a built word. -/
@[simp] theorem getLsbD_wordOfBits (f : Nat → Bool) (j : Nat) :
    (wordOfBits f).getLsbD j = (decide (j < 64) && f j) := by
  simp [wordOfBits, BitVec.getLsbD_ofNat, testBit_natOfBits]

@[simp] theorem getElem_wordOfBits (f : Nat → Bool) (j : Nat) (hj : j < 64) : (wordOfBits f)[j] = f j := by
  rw [← BitVec.getLsbD_eq_getElem, getLsbD_wordOfBits]
  simp [hj]

/-- Two words with the same 64 bits are the same word. -/
theorem word_ext (x y : Word) (h : ∀ j, j < 64 → x.getLsbD j = y.getLsbD j) : x = y :=
  BitVec.eq_of_getLsbD_eq h

theorem wordOfBits_self (x : Word) : wordOfBits x.getLsbD = x :=
  word_ext _ _ fun j hj => by simp [hj, -BitVec.getLsbD_eq_getElem]

/-- Bit `j` of `mask(len)`. -/
@[simp] theorem getLsbD_maskOf (len j : Nat) : (maskOf len).getLsbD j = (decide (j < 64) && decide (j < len)) := by
  simp [maskOf, BitVec.getLsbD_ofNat, Nat.testBit_two_pow_sub_one]

@[simp] theorem getLsbD_ones (j : Nat) : ones.getLsbD j = decide (j < 64) := BitVec.getLsbD_allOnes

@[simp] theorem getLsbD_wordOfBit (b : Bool) (j : Nat) : (wordOfBit b).getLsbD j = (decide (j = 0) && b) := by
  cases b <;> simp [wordOfBit]

/-- The range operation on a word, bit by bit. -/
theorem getLsbD_rangeWord (op : RangeOp) (w m : Word) (j : Nat) (hj : j < 64) :
    (rangeWord op w m).getLsbD j = if m.getLsbD j then rangeBit op (w.getLsbD j) else w.getLsbD j := by
  cases op <;> cases hm : m.getLsbD j <;> cases hw : w.getLsbD j <;> simp [rangeWord, rangeBit, hm, hw, hj, -BitVec.getLsbD_eq_getElem]

end Sys2Proof.Machine
end

