-- ==== Sys2Proof/Laws/State.lean ====
section
/-! SUPPORT. One lemma per field per update of the state, and the field lemmas of the operations that change `WM`. -/

namespace Sys2Proof.Machine

@[simp] theorem State.setWord_nwords (s : State) (w : Nat) (v : Word) : (s.setWord w v).nwords = s.nwords := rfl
@[simp] theorem State.setWord_wm (s : State) (w : Nat) (v : Word) : (s.setWord w v).wm = Memory.write s.wm w v := rfl
@[simp] theorem State.setWord_desc (s : State) (w : Nat) (v : Word) : (s.setWord w v).desc = s.desc := rfl
@[simp] theorem State.setWord_resp (s : State) (w : Nat) (v : Word) : (s.setWord w v).resp = s.resp := rfl
@[simp] theorem State.setWord_resets (s : State) (w : Nat) (v : Word) : (s.setWord w v).resets = s.resets := rfl
@[simp] theorem State.setWord_port (s : State) (w : Nat) (v : Word) : (s.setWord w v).port = s.port := rfl

@[simp] theorem State.setWindow_nwords (s : State) (d : Fin 16) (w : Descriptor) : (s.setWindow d w).nwords = s.nwords := rfl
@[simp] theorem State.setWindow_wm (s : State) (d : Fin 16) (w : Descriptor) : (s.setWindow d w).wm = s.wm := rfl
@[simp] theorem State.setWindow_desc (s : State) (d : Fin 16) (w : Descriptor) : (s.setWindow d w).desc = s.desc.set d w := rfl
@[simp] theorem State.setWindow_resp (s : State) (d : Fin 16) (w : Descriptor) : (s.setWindow d w).resp = s.resp := rfl
@[simp] theorem State.setWindow_resets (s : State) (d : Fin 16) (w : Descriptor) : (s.setWindow d w).resets = s.resets := rfl
@[simp] theorem State.setWindow_port (s : State) (d : Fin 16) (w : Descriptor) : (s.setWindow d w).port = s.port := rfl

@[simp] theorem State.reply_nwords (s : State) (c : Code) (v : Word) : (s.reply c v).nwords = s.nwords := rfl
@[simp] theorem State.reply_wm (s : State) (c : Code) (v : Word) : (s.reply c v).wm = s.wm := rfl
@[simp] theorem State.reply_desc (s : State) (c : Code) (v : Word) : (s.reply c v).desc = s.desc := rfl
@[simp] theorem State.reply_resp (s : State) (c : Code) (v : Word) : (s.reply c v).resp = ⟨c, v⟩ := rfl
@[simp] theorem State.reply_resets (s : State) (c : Code) (v : Word) : (s.reply c v).resets = s.resets := rfl
@[simp] theorem State.reply_port (s : State) (c : Code) (v : Word) : (s.reply c v).port = s.port := rfl

@[simp] theorem State.done_nwords (s : State) (v : Word) : (s.done v).nwords = s.nwords := rfl
@[simp] theorem State.done_wm (s : State) (v : Word) : (s.done v).wm = s.wm := rfl
@[simp] theorem State.done_desc (s : State) (v : Word) : (s.done v).desc = s.desc := rfl
@[simp] theorem State.done_resp (s : State) (v : Word) : (s.done v).resp = ⟨.ok, v⟩ := rfl
@[simp] theorem State.done_resets (s : State) (v : Word) : (s.done v).resets = s.resets := rfl
@[simp] theorem State.done_port (s : State) (v : Word) : (s.done v).port = s.port := rfl

@[simp] theorem State.raise_nwords (s : State) (c : Code) : (s.raise c).nwords = s.nwords := rfl
@[simp] theorem State.raise_wm (s : State) (c : Code) : (s.raise c).wm = s.wm := rfl
@[simp] theorem State.raise_desc (s : State) (c : Code) : (s.raise c).desc = s.desc := rfl
@[simp] theorem State.raise_resp (s : State) (c : Code) : (s.raise c).resp = ⟨c, 0⟩ := rfl
@[simp] theorem State.raise_resets (s : State) (c : Code) : (s.raise c).resets = s.resets := rfl
@[simp] theorem State.raise_port (s : State) (c : Code) : (s.raise c).port = s.port := rfl

@[simp] theorem State.issue_nwords (s : State) (p : Packet) : (s.issue p).nwords = s.nwords := rfl
@[simp] theorem State.issue_wm (s : State) (p : Packet) : (s.issue p).wm = s.wm := rfl
@[simp] theorem State.issue_desc (s : State) (p : Packet) : (s.issue p).desc = s.desc := rfl
@[simp] theorem State.issue_resp (s : State) (p : Packet) : (s.issue p).resp = s.resp := rfl
@[simp] theorem State.issue_resets (s : State) (p : Packet) : (s.issue p).resets = s.resets := rfl
@[simp] theorem State.issue_port (s : State) (p : Packet) : (s.issue p).port = .packet p :: s.port := rfl

@[simp] theorem State.putBits_nwords (s : State) (lo hi : Nat) (g : Nat → Bool) : (s.putBits lo hi g).nwords = s.nwords := rfl
@[simp] theorem State.putBits_desc (s : State) (lo hi : Nat) (g : Nat → Bool) : (s.putBits lo hi g).desc = s.desc := rfl
@[simp] theorem State.putBits_resp (s : State) (lo hi : Nat) (g : Nat → Bool) : (s.putBits lo hi g).resp = s.resp := rfl
@[simp] theorem State.putBits_resets (s : State) (lo hi : Nat) (g : Nat → Bool) : (s.putBits lo hi g).resets = s.resets := rfl
@[simp] theorem State.putBits_port (s : State) (lo hi : Nat) (g : Nat → Bool) : (s.putBits lo hi g).port = s.port := rfl

@[simp] theorem State.applyRange_nwords (s : State) (op : RangeOp) (lo hi : Nat) : (s.applyRange op lo hi).nwords = s.nwords :=
  rfl
@[simp] theorem State.applyRange_desc (s : State) (op : RangeOp) (lo hi : Nat) : (s.applyRange op lo hi).desc = s.desc :=
  rfl
@[simp] theorem State.applyRange_resp (s : State) (op : RangeOp) (lo hi : Nat) : (s.applyRange op lo hi).resp = s.resp :=
  rfl
@[simp] theorem State.applyRange_resets (s : State) (op : RangeOp) (lo hi : Nat) : (s.applyRange op lo hi).resets = s.resets :=
  rfl
@[simp] theorem State.applyRange_port (s : State) (op : RangeOp) (lo hi : Nat) : (s.applyRange op lo hi).port = s.port :=
  rfl

@[simp] theorem State.writeSpan_nwords (s : State) (k : Kind) (a len : Nat) (v : Word) : (s.writeSpan k a len v).nwords = s.nwords :=
  rfl
@[simp] theorem State.writeSpan_desc (s : State) (k : Kind) (a len : Nat) (v : Word) : (s.writeSpan k a len v).desc = s.desc :=
  rfl
@[simp] theorem State.writeSpan_resp (s : State) (k : Kind) (a len : Nat) (v : Word) : (s.writeSpan k a len v).resp = s.resp :=
  rfl
@[simp] theorem State.writeSpan_resets (s : State) (k : Kind) (a len : Nat) (v : Word) : (s.writeSpan k a len v).resets = s.resets :=
  rfl
@[simp] theorem State.writeSpan_port (s : State) (k : Kind) (a len : Nat) (v : Word) : (s.writeSpan k a len v).port = s.port :=
  rfl

@[simp] theorem State.writeBit_nwords (s : State) (k : Kind) (a : Nat) (b : Bool) : (s.writeBit k a b).nwords = s.nwords :=
  rfl
@[simp] theorem State.writeBit_desc (s : State) (k : Kind) (a : Nat) (b : Bool) : (s.writeBit k a b).desc = s.desc :=
  rfl
@[simp] theorem State.writeBit_resp (s : State) (k : Kind) (a : Nat) (b : Bool) : (s.writeBit k a b).resp = s.resp :=
  rfl
@[simp] theorem State.writeBit_resets (s : State) (k : Kind) (a : Nat) (b : Bool) : (s.writeBit k a b).resets = s.resets :=
  rfl
@[simp] theorem State.writeBit_port (s : State) (k : Kind) (a : Nat) (b : Bool) : (s.writeBit k a b).port = s.port :=
  rfl

@[simp] theorem State.transfer_nwords (s : State) (k : Kind) (src dst n : Nat) : (s.transfer k src dst n).nwords = s.nwords :=
  rfl
@[simp] theorem State.transfer_desc (s : State) (k : Kind) (src dst n : Nat) : (s.transfer k src dst n).desc = s.desc :=
  rfl
@[simp] theorem State.transfer_resp (s : State) (k : Kind) (src dst n : Nat) : (s.transfer k src dst n).resp = s.resp :=
  rfl
@[simp] theorem State.transfer_resets (s : State) (k : Kind) (src dst n : Nat) : (s.transfer k src dst n).resets = s.resets :=
  rfl
@[simp] theorem State.transfer_port (s : State) (k : Kind) (src dst n : Nat) : (s.transfer k src dst n).port = s.port :=
  rfl

/-! The reset event. -/

@[simp] theorem State.afterReset_nwords (s : State) : s.afterReset.nwords = s.nwords := rfl
@[simp] theorem State.afterReset_wm (s : State) : s.afterReset.wm = [] := rfl
@[simp] theorem State.afterReset_desc (s : State) : s.afterReset.desc = Vector.replicate 16 Descriptor.empty := rfl
@[simp] theorem State.afterReset_resp (s : State) : s.afterReset.resp = ⟨.ok, 0⟩ := rfl
@[simp] theorem State.afterReset_resets (s : State) : s.afterReset.resets = s.resets + 1 := rfl
@[simp] theorem State.afterReset_port (s : State) : s.afterReset.port = s.port := rfl

/-! A word, a bit, a window and `NBITS` depend on few fields. -/

@[simp] theorem State.setWord_window (s : State) (w : Nat) (v : Word) (x : Fin 16) : (s.setWord w v).window x = s.window x := rfl
@[simp] theorem State.setWord_nbits (s : State) (w : Nat) (v : Word) : (s.setWord w v).nbits = s.nbits := rfl
@[simp] theorem State.setWindow_word (s : State) (d : Fin 16) (w : Descriptor) (x : Nat) : (s.setWindow d w).word x = s.word x := rfl
@[simp] theorem State.setWindow_bit (s : State) (d : Fin 16) (w : Descriptor) (x : Nat) : (s.setWindow d w).bit x = s.bit x := rfl
@[simp] theorem State.setWindow_nbits (s : State) (d : Fin 16) (w : Descriptor) : (s.setWindow d w).nbits = s.nbits := rfl
@[simp] theorem State.reply_word (s : State) (c : Code) (v : Word) (x : Nat) : (s.reply c v).word x = s.word x := rfl
@[simp] theorem State.reply_bit (s : State) (c : Code) (v : Word) (x : Nat) : (s.reply c v).bit x = s.bit x := rfl
@[simp] theorem State.reply_window (s : State) (c : Code) (v : Word) (x : Fin 16) : (s.reply c v).window x = s.window x := rfl
@[simp] theorem State.reply_nbits (s : State) (c : Code) (v : Word) : (s.reply c v).nbits = s.nbits := rfl
@[simp] theorem State.done_word (s : State) (v : Word) (x : Nat) : (s.done v).word x = s.word x := rfl
@[simp] theorem State.done_bit (s : State) (v : Word) (x : Nat) : (s.done v).bit x = s.bit x := rfl
@[simp] theorem State.done_window (s : State) (v : Word) (x : Fin 16) : (s.done v).window x = s.window x := rfl
@[simp] theorem State.done_nbits (s : State) (v : Word) : (s.done v).nbits = s.nbits := rfl
@[simp] theorem State.raise_word (s : State) (c : Code) (x : Nat) : (s.raise c).word x = s.word x := rfl
@[simp] theorem State.raise_bit (s : State) (c : Code) (x : Nat) : (s.raise c).bit x = s.bit x := rfl
@[simp] theorem State.raise_window (s : State) (c : Code) (x : Fin 16) : (s.raise c).window x = s.window x := rfl
@[simp] theorem State.raise_nbits (s : State) (c : Code) : (s.raise c).nbits = s.nbits := rfl
@[simp] theorem State.issue_word (s : State) (p : Packet) (x : Nat) : (s.issue p).word x = s.word x := rfl
@[simp] theorem State.issue_bit (s : State) (p : Packet) (x : Nat) : (s.issue p).bit x = s.bit x := rfl
@[simp] theorem State.issue_window (s : State) (p : Packet) (x : Fin 16) : (s.issue p).window x = s.window x := rfl
@[simp] theorem State.issue_nbits (s : State) (p : Packet) : (s.issue p).nbits = s.nbits := rfl

@[simp] theorem State.putBits_window (s : State) (lo hi : Nat) (g : Nat → Bool) (x : Fin 16) :
    (s.putBits lo hi g).window x = s.window x := rfl

@[simp] theorem State.putBits_nbits (s : State) (lo hi : Nat) (g : Nat → Bool) :
    (s.putBits lo hi g).nbits = s.nbits := rfl

/-- The written window reads as written. -/
@[simp] theorem State.setWindow_window_self (s : State) (d : Fin 16) (w : Descriptor) :
    (s.setWindow d w).window d = w := by simp [State.window, State.setWindow]

/-- The other windows read as before. -/
theorem State.setWindow_window_ne (s : State) (d x : Fin 16) (w : Descriptor) (h : x ≠ d) :
    (s.setWindow d w).window x = s.window x := by
  have : (d : Nat) ≠ x := fun e => h (Fin.ext e.symm)
  simp [State.window, State.setWindow, this]

/-- After reset every window is empty, immutable and at offset 0. -/
@[simp] theorem State.resetOf_window (n : Nat) (d : Fin 16) : (State.resetOf n).window d = Descriptor.empty := by
  simp [State.window, State.resetOf]

@[simp] theorem State.afterReset_window (s : State) (d : Fin 16) : s.afterReset.window d = Descriptor.empty := by
  simp [State.window]

end Sys2Proof.Machine
end

