-- ==== Sys2Proof/Laws/Memory.lean ====
section
/-! SUPPORT. The listed words: what a write lists, and that every memory operation keeps the canonical form. -/

namespace Sys2Proof.Machine

/-- A write lists the value for its word and leaves the other words as they were. -/
theorem content_write (m : Memory) (w : Nat) (v : Word) (x : Nat) :
    Memory.content (Memory.write m w v) x = if x = w then some v else Memory.content m x := by
  induction m with
  | nil =>
    simp only [Memory.write, Memory.content]
    by_cases h : w = x
    · simp [h]
    · simp [h, Ne.symm h]
  | cons c m ih =>
    obtain ⟨y, u⟩ := c
    unfold Memory.write
    split
    · simp only [Memory.content]
      by_cases h : w = x
      · simp [h]
      · simp [h, Ne.symm h]
    · split
      · next h =>
        subst h
        by_cases hx : w = x
        · simp [Memory.content, hx]
        · simp [Memory.content, hx, Ne.symm hx]
      · simp only [Memory.content, ih]
        by_cases h1 : y = x
        · subst h1; simp; intro e; omega
        · simp [h1]

theorem mem_write (m : Memory) (w : Nat) (v : Word) (c : Nat × Word) (h : c ∈ Memory.write m w v) :
    c = (w, v) ∨ c ∈ m := by
  induction m with
  | nil => simpa [Memory.write] using h
  | cons d m ih =>
    obtain ⟨y, u⟩ := d
    unfold Memory.write at h
    split at h
    · simpa using h
    · split at h
      · rcases List.mem_cons.1 h with h | h
        · exact .inl h
        · exact .inr (List.mem_cons_of_mem _ h)
      · rcases List.mem_cons.1 h with h | h
        · exact .inr (h ▸ List.mem_cons_self ..)
        · exact (ih h).imp id (List.mem_cons_of_mem _)

/-- A write inside the memory keeps the canonical form. -/
theorem wf_write (n : Nat) (m : Memory) (w : Nat) (v : Word) (hm : Memory.wf n m) (hw : w < n) :
    Memory.wf n (Memory.write m w v) := by
  refine ⟨?_, fun c hc => (mem_write m w v c hc).elim (fun h => h ▸ hw) (hm.2 c)⟩
  obtain ⟨hp, -⟩ := hm
  induction m with
  | nil => simp [Memory.write]
  | cons d m ih =>
    obtain ⟨y, u⟩ := d
    rw [List.pairwise_cons] at hp
    unfold Memory.write
    split
    · next h =>
      refine List.pairwise_cons.2 ⟨fun c hc => ?_, List.pairwise_cons.2 hp⟩
      rcases List.mem_cons.1 hc with rfl | hc
      · exact h
      · have := hp.1 c hc
        simp only at this ⊢
        omega
    · split
      · next h => exact List.pairwise_cons.2 ⟨fun c hc => h ▸ hp.1 c hc, hp.2⟩
      · refine List.pairwise_cons.2 ⟨fun c hc => ?_, ih hp.2⟩
        rcases mem_write m w v c hc with rfl | hc
        · simp only; omega
        · exact hp.1 c hc

/-- What a run of word writes lists. -/
theorem content_writeWords (g : Nat → Word) (m : Memory) (w n x : Nat) :
    Memory.content (Memory.writeWords g m w n) x =
      if w ≤ x ∧ x < w + n then some (g x) else Memory.content m x := by
  induction n generalizing m w with
  | zero =>
    rw [if_neg (by omega)]
    rfl
  | succ n ih =>
    rw [Memory.writeWords, ih, content_write]
    by_cases hx : x = w
    · subst hx
      have h1 : ¬ (x + 1 ≤ x ∧ x < x + 1 + n) := by omega
      have h2 : x ≤ x ∧ x < x + (n + 1) := by omega
      rw [if_neg h1, if_pos h2, if_pos rfl]
    · rw [if_neg hx]
      by_cases h : w + 1 ≤ x ∧ x < w + 1 + n
      · rw [if_pos h, if_pos (by omega)]
      · rw [if_neg h, if_neg (by omega)]

theorem wf_writeWords (k : Nat) (g : Nat → Word) (m : Memory) (w n : Nat) (hm : Memory.wf k m)
    (hw : n = 0 ∨ w + n ≤ k) : Memory.wf k (Memory.writeWords g m w n) := by
  induction n generalizing m w with
  | zero => exact hm
  | succ n ih => exact ih _ _ (wf_write k m w (g w) hm (by omega)) (by omega)

theorem content_none (m : Memory) (x : Nat) (h : ∀ c ∈ m, c.1 ≠ x) : Memory.content m x = none := by
  induction m with
  | nil => rfl
  | cons c m ih =>
    obtain ⟨y, u⟩ := c
    have hy : y ≠ x := h (y, u) (List.mem_cons_self ..)
    simp [Memory.content, hy, ih fun c hc => h c (List.mem_cons_of_mem _ hc)]

/-- Two canonical memories that list the same value for every word are equal data. -/
theorem memory_ext (n : Nat) (m m' : Memory) (hm : Memory.wf n m) (hm' : Memory.wf n m')
    (h : ∀ w, Memory.content m w = Memory.content m' w) : m = m' := by
  obtain ⟨hp, -⟩ := hm
  obtain ⟨hp', -⟩ := hm'
  induction m generalizing m' with
  | nil =>
    cases m' with
    | nil => rfl
    | cons c m' => have := h c.1; simp [Memory.content] at this
  | cons c m ih =>
    obtain ⟨y, u⟩ := c
    cases m' with
    | nil => have := h y; simp [Memory.content] at this
    | cons c' m' =>
      obtain ⟨y', u'⟩ := c'
      rw [List.pairwise_cons] at hp hp'
      have hne : ∀ (k : Nat) (l : Memory), (∀ a ∈ l, k < a.1) → ∀ z, z ≤ k → Memory.content l z = none :=
        fun k l hl z hz => content_none l z fun c hc => by have := hl c hc; omega
      have hy : y = y' := by
        rcases Nat.lt_trichotomy y y' with hlt | heq | hgt
        · have h1 := h y
          have h2 := hne y' m' hp'.1 y (by omega)
          have h3 : y' ≠ y := by omega
          simp [Memory.content, h3, h2] at h1
        · exact heq
        · have h1 := h y'
          have h2 := hne y m hp.1 y' (by omega)
          have h3 : y ≠ y' := by omega
          simp [Memory.content, h3, h2] at h1
      subst hy
      have hu : u = u' := by simpa [Memory.content] using h y
      subst hu
      refine congrArg _ (ih m' (fun w => ?_) hp.2 hp'.2)
      by_cases hw : y = w
      · subst hw; rw [hne y m hp.1 y (Nat.le_refl _), hne y m' hp'.1 y (Nat.le_refl _)]
      · simpa [Memory.content, hw] using h w

end Sys2Proof.Machine
end

