-- ==== Sys2Proof/Laws/Ops.lean ====
section
/-! SUPPORT. One lemma per shared operation that says everything it can do: the bits and words a write leaves, the checks,
and the two ways a command can end early. -/

namespace Sys2Proof.Machine

/-! ## Writes -/

/-- A word write: read back, and every other word as before. -/
theorem State.word_setWord (s : State) (w : Nat) (v : Word) (x : Nat) :
    (s.setWord w v).word x = if x = w then v else s.word x := by
  simp only [State.word, State.setWord, content_write]
  split <;> rfl

theorem State.bit_setWord (s : State) (w : Nat) (v : Word) (x : Nat) :
    (s.setWord w v).bit x = if x / 64 = w then v.getLsbD (x % 64) else s.bit x := by
  simp only [State.bit, State.word_setWord]
  split <;> rfl

theorem State.getLsbD_mergedWord (s : State) (lo hi : Nat) (g : Nat → Bool) (w j : Nat) (hj : j < 64) :
    (s.mergedWord lo hi g w).getLsbD j =
      if lo ≤ 64 * w + j ∧ 64 * w + j < hi then g (64 * w + j) else s.bit (64 * w + j) := by
  have e1 : (64 * w + j) / 64 = w := by omega
  have e2 : (64 * w + j) % 64 = j := by omega
  simp [State.mergedWord, hj, State.bit, e1, e2, -BitVec.getLsbD_eq_getElem]

/-- THE law of every bit write: the bits of the range are replaced, no other bit changes. -/
theorem State.bit_putBits (s : State) (lo hi : Nat) (g : Nat → Bool) (x : Nat) :
    (s.putBits lo hi g).bit x = if lo ≤ x ∧ x < hi then g x else s.bit x := by
  have e : 64 * (x / 64) + x % 64 = x := by omega
  have hw : (s.putBits lo hi g).word (x / 64) =
      if lo < hi ∧ lo / 64 ≤ x / 64 ∧ x / 64 < lo / 64 + ((hi - 1) / 64 - lo / 64 + 1) then s.mergedWord lo hi g (x / 64)
      else s.word (x / 64) := by
    simp only [State.word, State.putBits]
    by_cases h : lo < hi
    · simp only [h, if_true, true_and, content_writeWords]
      split <;> rfl
    · simp [h]
  rw [State.bit, hw]
  split
  · rw [State.getLsbD_mergedWord _ _ _ _ _ _ (by omega), e]
  · next hn => rw [if_neg (by omega)]; rfl

/-- Reading a word is reading its bits. -/
theorem State.getLsbD_word (s : State) (w j : Nat) (hj : j < 64) : (s.word w).getLsbD j = s.bit (64 * w + j) := by
  have e1 : (64 * w + j) / 64 = w := by omega
  have e2 : (64 * w + j) % 64 = j := by omega
  simp [State.bit, e1, e2]

/-- Two states with the same bits have the same words. -/
theorem State.word_eq_of_bit_eq (s t : State) (h : ∀ a, s.bit a = t.bit a) (w : Nat) : s.word w = t.word w :=
  word_ext _ _ fun j hj => by rw [State.getLsbD_word s w j hj, State.getLsbD_word t w j hj, h]

theorem State.bit_applyRange (s : State) (op : RangeOp) (lo hi x : Nat) :
    (s.applyRange op lo hi).bit x = if lo ≤ x ∧ x < hi then rangeBit op (s.bit x) else s.bit x :=
  State.bit_putBits ..

theorem State.bit_writeSpan (s : State) (k : Kind) (a len : Nat) (v : Word) (x : Nat) :
    (s.writeSpan k a len v).bit x =
      if a ≤ x ∧ x < a + len then comb k (s.bit x) (v.getLsbD (x - a)) else s.bit x :=
  State.bit_putBits ..

theorem State.bit_writeBit (s : State) (k : Kind) (a : Nat) (b : Bool) (x : Nat) :
    (s.writeBit k a b).bit x = if x = a then comb k (s.bit x) b else s.bit x := by
  rw [State.writeBit, State.bit_putBits]
  by_cases h : x = a
  · simp [h]
  · rw [if_neg (by omega), if_neg h]

theorem State.bit_transfer (s : State) (k : Kind) (src dst n x : Nat) :
    (s.transfer k src dst n).bit x =
      if dst ≤ x ∧ x < dst + n then comb k (s.bit x) (s.bit (src + (x - dst))) else s.bit x :=
  State.bit_putBits ..

/-- The span read, bit by bit (R80). -/
theorem State.getLsbD_readSpan (s : State) (a len i : Nat) :
    (s.readSpan a len).getLsbD i = (decide (i < 64) && (decide (i < len) && s.bit (a + i))) := by
  simp [State.readSpan]

/-- A bit write that stays inside `WM` keeps the canonical form. -/
theorem State.putBits_wf (s : State) (lo hi : Nat) (g : Nat → Bool) (hm : Memory.wf s.nwords s.wm)
    (h : hi ≤ lo ∨ hi ≤ s.nbits) : Memory.wf s.nwords (s.putBits lo hi g).wm := by
  simp only [State.putBits]
  split
  · next hlt =>
    refine wf_writeWords _ _ _ _ _ hm (.inr ?_)
    simp only [State.nbits] at h
    omega
  · exact hm

/-- Two bit writes over the same range that write the same bits leave the same state. -/
theorem State.putBits_congr (s : State) (lo hi : Nat) (f g : Nat → Bool) (h : ∀ x, lo ≤ x → x < hi → f x = g x) :
    s.putBits lo hi f = s.putBits lo hi g := by
  have hm : s.mergedWord lo hi f = s.mergedWord lo hi g := by
    funext w
    refine word_ext _ _ fun j hj => ?_
    rw [State.getLsbD_mergedWord _ _ _ _ _ _ hj, State.getLsbD_mergedWord _ _ _ _ _ _ hj]
    split
    · next hx => exact h _ hx.1 hx.2
    · rfl
  simp only [State.putBits, hm]

theorem State.setWord_wf (s : State) (w : Nat) (v : Word) (hm : Memory.wf s.nwords s.wm) (h : w < s.nwords) :
    Memory.wf s.nwords (s.setWord w v).wm := wf_write _ _ _ _ hm h

/-- An empty write leaves the state as it is. -/
theorem State.putBits_empty (s : State) (lo hi : Nat) (g : Nat → Bool) (h : hi ≤ lo) : s.putBits lo hi g = s := by
  simp [State.putBits, Nat.not_lt.2 h]

/-! ## Checks -/

theorem indexCheck_eq_none (sz a : Int) : indexCheck sz a = none ↔ 0 ≤ a ∧ a < sz := by
  unfold indexCheck; split <;> [skip; split] <;> simp <;> omega

theorem spanCheck_eq_none (sz a : Int) (len : Nat) :
    spanCheck sz a len = none ↔ len ≤ 64 ∧ 0 ≤ a ∧ a + (len : Int) ≤ sz := by
  unfold spanCheck; split <;> [skip; split <;> [skip; split]] <;> simp <;> omega

theorem rangeCheck_eq_none (sz a e : Int) : rangeCheck sz a e = none ↔ 0 ≤ a ∧ a ≤ e ∧ e ≤ sz := by
  unfold rangeCheck; split <;> [skip; split <;> [skip; split]] <;> simp <;> omega

theorem storeCheck_eq_none (sz n a : Int) : storeCheck sz n a = none ↔ 0 ≤ a ∧ a + n ≤ sz := by
  unfold storeCheck; split <;> [skip; split] <;> simp <;> omega

theorem windowCheck_eq_none (nbits : Nat) (a e : Int) :
    windowCheck nbits a e = none ↔ 0 ≤ a ∧ a ≤ e ∧ e ≤ (nbits : Int) := by
  unfold windowCheck; split <;> [skip; split <;> [skip; split]] <;> simp <;> omega

theorem wordCheck_eq_none (nwords : Nat) (a : Int) : wordCheck nwords a = none ↔ 0 ≤ a ∧ a < (nwords : Int) := by
  unfold wordCheck; split <;> simp <;> omega

theorem indexCheck_some (sz a : Int) (c : Code) (h : indexCheck sz a = some c) : c = .invalidArgument := by
  unfold indexCheck at h; split at h <;> [skip; split at h] <;> simp_all

theorem spanCheck_some (sz a : Int) (len : Nat) (c : Code) (h : spanCheck sz a len = some c) :
    c = .invalidArgument := by
  unfold spanCheck at h; split at h <;> [skip; split at h <;> [skip; split at h]] <;> simp_all

theorem rangeCheck_some (sz a e : Int) (c : Code) (h : rangeCheck sz a e = some c) : c = .invalidArgument := by
  unfold rangeCheck at h; split at h <;> [skip; split at h <;> [skip; split at h]] <;> simp_all

theorem storeCheck_some (sz n a : Int) (c : Code) (h : storeCheck sz n a = some c) : c = .invalidArgument := by
  unfold storeCheck at h; split at h <;> [skip; split at h] <;> simp_all

theorem windowCheck_some (nbits : Nat) (a e : Int) (c : Code) (h : windowCheck nbits a e = some c) :
    c = .invalidArgument := by
  unfold windowCheck at h; split at h <;> [skip; split at h <;> [skip; split at h]] <;> simp_all

theorem wordCheck_some (nwords : Nat) (a : Int) (c : Code) (h : wordCheck nwords a = some c) :
    c = .invalidArgument := by
  unfold wordCheck at h; split at h <;> simp_all

@[simp] theorem gate_eq_none (w : Descriptor) : gate w = none ↔ w.mutable = true := by
  unfold gate; split <;> simp_all

theorem gate_of_immutable (w : Descriptor) (h : w.mutable = false) : gate w = some .invalidState := by
  simp [gate, h]

theorem gate_some (w : Descriptor) (c : Code) (h : gate w = some c) : c = .invalidState ∧ w.mutable = false := by
  unfold gate at h; split at h <;> simp_all

@[simp] theorem firstFailure_eq_none (e g : Option Code) : firstFailure e g = none ↔ e = none ∧ g = none := by
  cases e <;> simp [firstFailure]

/-- The argument check is reported before the gate (R145). -/
@[simp] theorem firstFailure_some (c : Code) (g : Option Code) : firstFailure (some c) g = some c := rfl

@[simp] theorem firstFailure_none (g : Option Code) : firstFailure none g = g := rfl

/-! ## The two ways to end early -/

@[simp] theorem State.checked_none (s : State) (k : Host.Outcome State Fault Refusal) : s.checked none k = k := rfl

@[simp] theorem State.checked_some (s : State) (c : Code) (k : Host.Outcome State Fault Refusal) :
    s.checked (some c) k = .next (s.raise c) := rfl

theorem State.within_of_le (s : State) (lo hi : Nat) (k : Host.Outcome State Fault Refusal)
    (h : hi ≤ lo ∨ hi ≤ s.nbits) : s.within lo hi k = k := by simp [State.within, h]

/-- A checked command answers a next state in one of two ways: an error, or what it goes on to do. -/
theorem State.checked_next (s t : State) (e : Option Code) (k : Host.Outcome State Fault Refusal)
    (h : s.checked e k = .next t) : (∃ c, e = some c ∧ t = s.raise c) ∨ (e = none ∧ k = .next t) := by
  cases e with
  | none => exact .inr ⟨rfl, h⟩
  | some c => exact .inl ⟨c, rfl, by simpa using h.symm⟩

/-- A guarded access answers a next state only where `WM` has the words. -/
theorem State.within_next (s t : State) (lo hi : Nat) (k : Host.Outcome State Fault Refusal)
    (h : s.within lo hi k = .next t) : (hi ≤ lo ∨ hi ≤ s.nbits) ∧ k = .next t := by
  unfold State.within at h
  split at h
  · exact ⟨‹_›, h⟩
  · cases h

/-! ## Windows -/

/-- The absolute offset of a logical index that is not negative. -/
theorem Descriptor.abs_of_nonneg (w : Descriptor) (i : Int) (h : 0 ≤ i) : w.abs i = w.start + i.toNat := by
  unfold Descriptor.abs; omega

/-- The size of a legal window is its number of bits. -/
theorem Descriptor.size_of_le (w : Descriptor) (h : w.start ≤ w.finish) : w.size = (w.count : Int) := by
  unfold Descriptor.size Descriptor.count; omega

end Sys2Proof.Machine
end

