-- ==== Sys2Proof/Laws/Exec.lean ====
section
/-! SUPPORT. `exec` on the kind-indexed spellings is the common part of the family; what a descriptor's legality gives its
positions; and, once for all commands, everything a command that answers a next state can have done. -/

namespace Sys2Proof.Machine

theorem exec_wbit (k : Kind) (d : Fin 16) (a : Int) (b : Bool) (s : State) :
    exec (wbit k d a b) s = bitCommand k d a b s := by cases k <;> rfl

theorem exec_wbits (k : Kind) (d : Fin 16) (a : Int) (len : Nat) (v : Word) (s : State) :
    exec (wbits k d a len v) s = spanCommand k d a len v s := by cases k <;> rfl

theorem exec_wfill (k : Kind) (d : Fin 16) (b : Bool) (s : State) :
    exec (wfill k d b) s = fillCommand k d b s := by cases k <;> rfl

theorem exec_wrange (k : Kind) (d : Fin 16) (a e : Int) (b : Bool) (s : State) :
    exec (wrange k d a e b) s = constRangeCommand k d a e b s := by cases k <;> rfl

theorem exec_wstore (k : Kind) (d r : Fin 16) (a : Int) (s : State) :
    exec (wstore k d r a) s = storeCommand k d r a s := by cases k <;> rfl

theorem exec_rangeInstr (op : RangeOp) (d : Fin 16) (a e : Int) (s : State) :
    exec (rangeInstr op d a e) s = rangeCommand op d a e s := by cases op <;> rfl

/-- A legal window ends inside `WM`. -/
theorem State.inv_finish_le (s : State) (h : s.inv) (d : Fin 16) : (s.window d).finish ≤ s.nbits :=
  (h.2.2.1 d).2

theorem State.inv_start_le (s : State) (h : s.inv) (d : Fin 16) : (s.window d).start ≤ (s.window d).finish :=
  (h.2.2.1 d).1

/-- A logical index up to the size lies in the window's absolute range. -/
theorem State.inv_abs_le (s : State) (h : s.inv) (d : Fin 16) (i : Int) (h0 : 0 ≤ i) (h1 : i ≤ (s.window d).size) :
    (s.window d).start ≤ (s.window d).abs i ∧ (s.window d).abs i ≤ (s.window d).finish := by
  have := s.inv_start_le h d
  unfold Descriptor.size at h1
  unfold Descriptor.abs
  omega

/-- An outcome is one next state. -/
theorem eq_of_next {s t : State} (h : (.next s : Host.Outcome State Fault Refusal) = .next t) : t = s := by
  cases h
  rfl

/-! ## Everything a command can do -/

/-- What a command none of whose checks fails does to the state. -/
inductive Effect (i : Instr) (s t : State) : Prop where
  /-- Only `RESP` changes. -/
  | respond (v : Word) (hd : descriptorTarget i = none) (hw : writeTarget i = none) (hm : wordTarget i = none)
      (ht : t = s.done v)
  /-- A descriptor is written, a legal one if the state meets the invariant. -/
  | describe (d : Fin 16) (w : Descriptor) (hd : descriptorTarget i = some d) (hw : writeTarget i = none)
      (hm : wordTarget i = none) (hl : s.inv → w.legal s.nwords) (ht : t = (s.setWindow d w).done 0)
  /-- `MWR` writes a word that exists. -/
  | store (a : Int) (v : Word) (hd : descriptorTarget i = none) (hw : writeTarget i = none)
      (hm : wordTarget i = some a) (ha : 0 ≤ a ∧ a < (s.nwords : Int)) (ht : t = (s.setWord a.toNat v).done 0)
  /-- A write-class command writes bits of its mutable target, inside the window if the state meets the invariant; an
  empty range where no bit changes. -/
  | write (d : Fin 16) (lo hi : Nat) (g : Nat → Bool) (hd : descriptorTarget i = none) (hw : writeTarget i = some d)
      (hm : wordTarget i = none) (hmut : (s.window d).mutable = true) (hb : hi ≤ lo ∨ hi ≤ s.nbits)
      (hin : s.inv → (s.window d).start ≤ lo ∧ hi ≤ (s.window d).finish) (ht : t = (s.putBits lo hi g).done 0)

/-- A command that answers a next state failed an argument check, failed the gate, or had its effect. -/
def Outcomes (i : Instr) (s t : State) : Prop :=
  (argumentCheck s i = some .invalidArgument ∧ t = s.raise .invalidArgument) ∨
  (argumentCheck s i = none ∧ (∃ d, writeTarget i = some d ∧ (s.window d).mutable = false) ∧
    t = s.raise .invalidState) ∨
  (argumentCheck s i = none ∧ Effect i s t)

theorem outcomes_of_check (i : Instr) (s t : State) (e : Option Code) (k : Host.Outcome State Fault Refusal)
    (he : argumentCheck s i = e) (hc : ∀ c, e = some c → c = .invalidArgument) (h : s.checked e k = .next t)
    (hk : e = none → k = .next t → Effect i s t) : Outcomes i s t := by
  rcases State.checked_next _ _ _ _ h with ⟨c, rfl, rfl⟩ | ⟨hn, hk'⟩
  · have := hc c rfl
    subst this
    exact .inl ⟨he, rfl⟩
  · exact .inr (.inr ⟨he.trans hn, hk hn hk'⟩)

theorem outcomes_of_gated (i : Instr) (s t : State) (d : Fin 16) (e : Option Code)
    (k : Host.Outcome State Fault Refusal) (hw : writeTarget i = some d) (he : argumentCheck s i = e)
    (hc : ∀ c, e = some c → c = .invalidArgument)
    (h : s.checked (firstFailure e (gate (s.window d))) k = .next t)
    (hk : e = none → (s.window d).mutable = true → k = .next t → Effect i s t) : Outcomes i s t := by
  cases e with
  | some c =>
    have := hc c rfl
    subst this
    exact .inl ⟨he, by simpa using h.symm⟩
  | none =>
    rcases State.checked_next _ _ _ _ h with ⟨c, hg, rfl⟩ | ⟨hg, hk'⟩
    · obtain ⟨rfl, hmut⟩ := gate_some _ _ hg
      exact .inr (.inl ⟨he, ⟨d, hw, hmut⟩, rfl⟩)
    · exact .inr (.inr ⟨he, hk rfl ((gate_eq_none _).1 hg) hk'⟩)

theorem outcomes_rangeInstr (op : RangeOp) (d : Fin 16) (a e : Int) (s t : State)
    (h : rangeCommand op d a e s = .next t) : Outcomes (rangeInstr op d a e) s t := by
  refine outcomes_of_gated _ _ _ d _ _ (by cases op <;> rfl) (by cases op <;> rfl) (fun c hc => rangeCheck_some _ _ _ _ hc) h
    fun hn hmut hk => ?_
  obtain ⟨hb, hk⟩ := State.within_next _ _ _ _ _ hk
  rw [rangeCheck_eq_none] at hn
  exact .write d _ _ _ (by cases op <;> rfl) (by cases op <;> rfl) (by cases op <;> rfl) hmut hb
    (fun hi => ⟨(s.inv_abs_le hi d a hn.1 (by omega)).1, (s.inv_abs_le hi d e (by omega) hn.2.2).2⟩)
    (eq_of_next hk)

theorem outcomes_wbit (k : Kind) (d : Fin 16) (a : Int) (b : Bool) (s t : State)
    (h : bitCommand k d a b s = .next t) : Outcomes (wbit k d a b) s t := by
  refine outcomes_of_gated _ _ _ d _ _ (by cases k <;> rfl) (by cases k <;> rfl) (fun c hc => indexCheck_some _ _ _ hc) h
    fun hn hmut hk => ?_
  obtain ⟨hb, hk⟩ := State.within_next _ _ _ _ _ hk
  rw [indexCheck_eq_none] at hn
  refine .write d _ _ _ (by cases k <;> rfl) (by cases k <;> rfl) (by cases k <;> rfl) hmut hb (fun hi => ?_)
    (eq_of_next hk)
  have h1 := s.inv_abs_le hi d a hn.1 (by omega)
  have h2 := s.inv_abs_le hi d (a + 1) (by omega) (by omega)
  refine ⟨h1.1, ?_⟩
  unfold Descriptor.abs at *
  omega

theorem outcomes_wbits (k : Kind) (d : Fin 16) (a : Int) (len : Nat) (v : Word) (s t : State)
    (h : spanCommand k d a len v s = .next t) : Outcomes (wbits k d a len v) s t := by
  refine outcomes_of_gated _ _ _ d _ _ (by cases k <;> rfl) (by cases k <;> rfl) (fun c hc => spanCheck_some _ _ _ _ hc) h
    fun hn hmut hk => ?_
  obtain ⟨hb, hk⟩ := State.within_next _ _ _ _ _ hk
  rw [spanCheck_eq_none] at hn
  refine .write d _ _ _ (by cases k <;> rfl) (by cases k <;> rfl) (by cases k <;> rfl) hmut hb (fun hi => ?_)
    (eq_of_next hk)
  have h1 := s.inv_abs_le hi d a hn.2.1 (by omega)
  have h2 := s.inv_abs_le hi d (a + len) (by omega) (by omega)
  refine ⟨h1.1, ?_⟩
  unfold Descriptor.abs at *
  omega

/-- The constant combine of a range is a bit write inside the range, an empty one where no bit changes. -/
theorem constRange_next (k : Kind) (b : Bool) (lo hi : Nat) (s t : State) (h : constRange k b lo hi s = .next t) :
    ∃ hi' g, (hi' = hi ∨ hi' = lo) ∧ (hi' ≤ lo ∨ hi' ≤ s.nbits) ∧ t = (s.putBits lo hi' g).done 0 := by
  unfold constRange at h
  split at h
  · obtain ⟨hb, hk⟩ := State.within_next _ _ _ _ _ h
    exact ⟨hi, _, .inl rfl, hb, eq_of_next hk⟩
  · refine ⟨lo, fun _ => false, .inr rfl, .inl (Nat.le_refl _), ?_⟩
    rw [State.putBits_empty _ _ _ _ (Nat.le_refl _)]
    simpa using h.symm

theorem outcomes_wfill (k : Kind) (d : Fin 16) (b : Bool) (s t : State)
    (h : fillCommand k d b s = .next t) : Outcomes (wfill k d b) s t := by
  refine outcomes_of_gated _ _ _ d none _ (by cases k <;> rfl) (by cases k <;> rfl) (fun c hc => by cases hc) h
    fun _ hmut hk => ?_
  obtain ⟨hi', g, hh, hb, ht⟩ := constRange_next _ _ _ _ _ _ hk
  refine .write d _ _ g (by cases k <;> rfl) (by cases k <;> rfl) (by cases k <;> rfl) hmut hb (fun hi => ?_) ht
  have := s.inv_start_le hi d
  omega

theorem outcomes_wrange (k : Kind) (d : Fin 16) (a e : Int) (b : Bool) (s t : State)
    (h : constRangeCommand k d a e b s = .next t) : Outcomes (wrange k d a e b) s t := by
  refine outcomes_of_gated _ _ _ d _ _ (by cases k <;> rfl) (by cases k <;> rfl) (fun c hc => rangeCheck_some _ _ _ _ hc) h
    fun hn hmut hk => ?_
  obtain ⟨hi', g, hh, hb, ht⟩ := constRange_next _ _ _ _ _ _ hk
  rw [rangeCheck_eq_none] at hn
  refine .write d _ _ g (by cases k <;> rfl) (by cases k <;> rfl) (by cases k <;> rfl) hmut hb (fun hi => ?_) ht
  have h1 := s.inv_abs_le hi d a hn.1 (by omega)
  have h2 := s.inv_abs_le hi d e (by omega) hn.2.2
  omega

theorem outcomes_wstore (k : Kind) (d r : Fin 16) (a : Int) (s t : State)
    (h : storeCommand k d r a s = .next t) : Outcomes (wstore k d r a) s t := by
  refine outcomes_of_gated _ _ _ d _ _ (by cases k <;> rfl) (by cases k <;> rfl) (fun c hc => storeCheck_some _ _ _ _ hc) h
    fun hn hmut hk => ?_
  obtain ⟨-, hk⟩ := State.within_next _ _ _ _ _ hk
  obtain ⟨hb, hk⟩ := State.within_next _ _ _ _ _ hk
  rw [storeCheck_eq_none] at hn
  refine .write d _ _ _ (by cases k <;> rfl) (by cases k <;> rfl) (by cases k <;> rfl) hmut hb (fun hi => ?_)
    (eq_of_next hk)
  have hs := (s.window r).size_of_le (s.inv_start_le hi r)
  have h1 := s.inv_abs_le hi d a hn.1 (by omega)
  have h2 := s.inv_abs_le hi d (a + (s.window r).size) (by omega) hn.2
  refine ⟨h1.1, ?_⟩
  unfold Descriptor.abs at *
  omega

/-- EVERYTHING a command that answers a next state can have done. -/
theorem exec_outcomes (i : Instr) (s t : State) (h : exec i s = .next t) : Outcomes i s t := by
  cases i with
  | nop => exact .inr (.inr ⟨rfl, .respond 0 rfl rfl rfl (eq_of_next h)⟩)
  | dset d a e b =>
    refine outcomes_of_check _ _ _ _ _ rfl (fun c hc => windowCheck_some _ _ _ _ hc) h fun hn hk =>
      .describe d _ rfl rfl rfl (fun _ => ?_) (eq_of_next hk)
    have hn := (windowCheck_eq_none _ _ _).1 hn
    simp only [Descriptor.legal, State.nbits] at *
    omega
  | dview d r a e =>
    refine outcomes_of_check _ _ _ _ _ rfl (fun c hc => rangeCheck_some _ _ _ _ hc) h fun hn hk =>
      .describe d _ rfl rfl rfl (fun hi => ?_) (eq_of_next hk)
    have hn := (rangeCheck_eq_none _ _ _).1 hn
    have h2 := s.inv_abs_le hi r e (by omega) hn.2.2
    have h3 := s.inv_finish_le hi r
    simp only [Descriptor.legal, State.nbits, Descriptor.abs] at *
    omega
  | dimm d r => exact .inr (.inr ⟨rfl, .describe d ⟨_, _, false⟩ rfl rfl rfl (fun hi => hi.2.2.1 r) (eq_of_next h)⟩)
  | size d => exact .inr (.inr ⟨rfl, .respond _ rfl rfl rfl (eq_of_next h)⟩)
  | mrd a =>
    exact outcomes_of_check _ _ _ _ _ rfl (fun c hc => wordCheck_some _ _ _ hc) h fun _ hk =>
      .respond _ rfl rfl rfl (eq_of_next hk)
  | mwr a v =>
    exact outcomes_of_check _ _ _ _ _ rfl (fun c hc => wordCheck_some _ _ _ hc) h fun hn hk =>
      .store a v rfl rfl rfl ((wordCheck_eq_none _ _).1 hn) (eq_of_next hk)
  | getbit d a =>
    exact outcomes_of_check _ _ _ _ _ rfl (fun c hc => indexCheck_some _ _ _ hc) h fun _ hk =>
      .respond _ rfl rfl rfl (eq_of_next (State.within_next _ _ _ _ _ hk).2)
  | getbits d a len =>
    exact outcomes_of_check _ _ _ _ _ rfl (fun c hc => spanCheck_some _ _ _ _ hc) h fun _ hk =>
      .respond _ rfl rfl rfl (eq_of_next (State.within_next _ _ _ _ _ hk).2)
  | rset d a e => exact outcomes_rangeInstr .set d a e s t h
  | rclr d a e => exact outcomes_rangeInstr .clear d a e s t h
  | rxor d a e => exact outcomes_rangeInstr .xor d a e s t h
  | wbitSet d a b => exact outcomes_wbit .set d a b s t h
  | wbitAnd d a b => exact outcomes_wbit .and d a b s t h
  | wbitOr d a b => exact outcomes_wbit .or d a b s t h
  | wbitXor d a b => exact outcomes_wbit .xor d a b s t h
  | wbitsSet d a len v => exact outcomes_wbits .set d a len v s t h
  | wbitsAnd d a len v => exact outcomes_wbits .and d a len v s t h
  | wbitsOr d a len v => exact outcomes_wbits .or d a len v s t h
  | wbitsXor d a len v => exact outcomes_wbits .xor d a len v s t h
  | wfillSet d b => exact outcomes_wfill .set d b s t h
  | wfillAnd d b => exact outcomes_wfill .and d b s t h
  | wfillOr d b => exact outcomes_wfill .or d b s t h
  | wfillXor d b => exact outcomes_wfill .xor d b s t h
  | wrangeSet d a e b => exact outcomes_wrange .set d a e b s t h
  | wrangeAnd d a e b => exact outcomes_wrange .and d a e b s t h
  | wrangeOr d a e b => exact outcomes_wrange .or d a e b s t h
  | wrangeXor d a e b => exact outcomes_wrange .xor d a e b s t h
  | wstoreSet d r a => exact outcomes_wstore .set d r a s t h
  | wstoreAnd d r a => exact outcomes_wstore .and d r a s t h
  | wstoreOr d r a => exact outcomes_wstore .or d r a s t h
  | wstoreXor d r a => exact outcomes_wstore .xor d r a s t h

end Sys2Proof.Machine
end

