-- ==== Sys2Proof/Laws/Packet.lean ====
section
/-! SUPPORT. The fields of a packed command word, and the two forms of a packet. -/

namespace Sys2Proof

/-- Bit `i` of a packed `CW0`, field by field from the bottom (R51). -/
theorem getLsbD_packCw0 (op : BitVec 8) (d s : Fin 16) (len : Nat) (b : Bool) (i : Nat) :
    (packCw0 op d s len b).getLsbD i =
      if i < 8 then op.getLsbD i
      else if i - 8 < 4 then (d : Nat).testBit (i - 8)
      else if i - 8 - 4 < 4 then (s : Nat).testBit (i - 8 - 4)
      else if i - 8 - 4 - 4 < 7 then (BitVec.ofNat 7 len).getLsbD (i - 8 - 4 - 4)
      else if i - 8 - 4 - 4 - 7 < 1 then (BitVec.ofBool b).getLsbD (i - 8 - 4 - 4 - 7)
      else false := by
  change BitVec.getLsbD (((0 : BitVec 40) ++ BitVec.ofBool b ++ BitVec.ofNat 7 len ++ BitVec.ofFin (w := 4) s ++
    BitVec.ofFin (w := 4) d ++ op : BitVec (40 + 1 + 7 + 4 + 4 + 8))) i = _
  have z : ∀ j, BitVec.getLsbD (0 : BitVec 40) j = false := fun _ => BitVec.getLsbD_zero
  simp only [BitVec.getLsbD_append, z]
  rfl

/-- Bit `i` of a packed `CW1`. -/
theorem getLsbD_packCw1 (a e : Int) (i : Nat) :
    (packCw1 a e).getLsbD i = if i < 32 then (BitVec.ofInt 32 a).getLsbD i else (BitVec.ofInt 32 e).getLsbD (i - 32) := by
  change BitVec.getLsbD ((BitVec.ofInt 32 e ++ BitVec.ofInt 32 a : BitVec (32 + 32))) i = _
  rw [BitVec.getLsbD_append]

/-- Bit `i` of a packet, word by word from the bottom (R50). -/
theorem getLsbD_packetBits (p : Packet) (i : Nat) :
    (packetBits p).getLsbD i =
      if i < 64 then p.cw0.getLsbD i
      else if i - 64 < 64 then p.cw1.getLsbD (i - 64) else p.cw2.getLsbD (i - 64 - 64) := by
  change BitVec.getLsbD ((p.cw2 ++ p.cw1 ++ p.cw0 : BitVec (64 + 64 + 64))) i = _
  simp only [BitVec.getLsbD_append]

@[simp] theorem packCw0_opcode (op : BitVec 8) (d s : Fin 16) (len : Nat) (b : Bool) (x y : Word) :
    opcodeOf ⟨packCw0 op d s len b, x, y⟩ = op := by
  apply BitVec.eq_of_getLsbD_eq
  intro i hi
  simp [opcodeOf, getLsbD_packCw0, hi, -BitVec.getLsbD_eq_getElem]

@[simp] theorem packCw0_d (op : BitVec 8) (d s : Fin 16) (len : Nat) (b : Bool) (x y : Word) :
    dOf ⟨packCw0 op d s len b, x, y⟩ = d := by
  have h : (packCw0 op d s len b).extractLsb' 8 4 = BitVec.ofFin (w := 4) d := by
    apply BitVec.eq_of_getLsbD_eq
    intro i hi
    simp [getLsbD_packCw0, hi, -BitVec.getLsbD_eq_getElem]
  simp [dOf, h]

@[simp] theorem packCw0_s (op : BitVec 8) (d s : Fin 16) (len : Nat) (b : Bool) (x y : Word) :
    sOf ⟨packCw0 op d s len b, x, y⟩ = s := by
  have h : (packCw0 op d s len b).extractLsb' 12 4 = BitVec.ofFin (w := 4) s := by
    apply BitVec.eq_of_getLsbD_eq
    intro i hi
    have h1 : ¬ 12 + i < 8 := by omega
    have h2 : ¬ 12 + i - 8 < 4 := by omega
    have h3 : 12 + i - 8 - 4 = i := by omega
    simp [getLsbD_packCw0, hi, h1, h2, h3, -BitVec.getLsbD_eq_getElem]
  simp [sOf, h]

@[simp] theorem packCw0_len (op : BitVec 8) (d s : Fin 16) (len : Nat) (b : Bool) (x y : Word) (hl : len < 128) :
    lenOf ⟨packCw0 op d s len b, x, y⟩ = len := by
  have h : (packCw0 op d s len b).extractLsb' 16 7 = BitVec.ofNat 7 len := by
    apply BitVec.eq_of_getLsbD_eq
    intro i hi
    have h1 : ¬ 16 + i < 8 := by omega
    have h2 : ¬ 16 + i - 8 < 4 := by omega
    have h3 : ¬ 16 + i - 8 - 4 < 4 := by omega
    have h4 : 16 + i - 8 - 4 - 4 = i := by omega
    simp [getLsbD_packCw0, hi, h1, h2, h3, h4, -BitVec.getLsbD_eq_getElem]
  simp [lenOf, h, Nat.mod_eq_of_lt hl]

@[simp] theorem packCw0_b (op : BitVec 8) (d s : Fin 16) (len : Nat) (b : Bool) (x y : Word) :
    bOf ⟨packCw0 op d s len b, x, y⟩ = b := by
  simp [bOf, getLsbD_packCw0, -BitVec.getLsbD_eq_getElem]

@[simp] theorem packCw0_rsv (op : BitVec 8) (d s : Fin 16) (len : Nat) (b : Bool) (x y : Word) :
    rsvOf ⟨packCw0 op d s len b, x, y⟩ = 0 := by
  apply BitVec.eq_of_getLsbD_eq
  intro i hi
  have h1 : ¬ 24 + i < 8 := by omega
  have h2 : ¬ 24 + i - 8 < 4 := by omega
  have h3 : ¬ 24 + i - 8 - 4 < 4 := by omega
  have h4 : ¬ 24 + i - 8 - 4 - 4 < 7 := by omega
  have h5 : ¬ 24 + i - 8 - 4 - 4 - 7 < 1 := by omega
  simp [rsvOf, getLsbD_packCw0, h1, h2, h3, h4, h5, -BitVec.getLsbD_eq_getElem]

/-- The integer of a 32-bit field is the integer written there, if it fits (R52). -/
theorem toInt_ofInt_of_fits (a : Int) (h : fitsI32 a = true) : (BitVec.ofInt 32 a).toInt = a := by
  simp only [fitsI32, Bool.and_eq_true, decide_eq_true_eq] at h
  rw [BitVec.toInt_ofInt]
  exact Int.bmod_eq_of_le (by omega) (by omega)

@[simp] theorem packCw1_a (a e : Int) (x y : Word) (h : fitsI32 a = true) : aOf ⟨x, packCw1 a e, y⟩ = a := by
  have hx : (packCw1 a e).extractLsb' 0 32 = BitVec.ofInt 32 a := by
    apply BitVec.eq_of_getLsbD_eq
    intro i hi
    simp [getLsbD_packCw1, hi, -BitVec.getLsbD_eq_getElem]
  simp [aOf, hx, toInt_ofInt_of_fits a h]

@[simp] theorem packCw1_e (a e : Int) (x y : Word) (h : fitsI32 e = true) : eOf ⟨x, packCw1 a e, y⟩ = e := by
  have hx : (packCw1 a e).extractLsb' 32 32 = BitVec.ofInt 32 e := by
    apply BitVec.eq_of_getLsbD_eq
    intro i hi
    simp [getLsbD_packCw1, hi, -BitVec.getLsbD_eq_getElem]
  simp [eOf, hx, toInt_ofInt_of_fits e h]

/-- The value operand is the third command word. -/
@[simp] theorem vOf_mk (x y z : Word) : vOf ⟨x, y, z⟩ = z := rfl

/-- An integer field always fits. -/
theorem fitsI32_aOf (p : Packet) : fitsI32 (aOf p) = true := by
  have h1 := BitVec.toInt_lt (x := p.cw1.extractLsb' 0 32)
  have h2 := BitVec.le_toInt (p.cw1.extractLsb' 0 32)
  simp only [Nat.add_one_sub_one, Int.reducePow, Int.reduceNeg] at h1 h2
  exact Bool.and_eq_true_iff.2 ⟨decide_eq_true h2, decide_eq_true (by unfold aOf; omega)⟩

theorem fitsI32_eOf (p : Packet) : fitsI32 (eOf p) = true := by
  have h1 := BitVec.toInt_lt (x := p.cw1.extractLsb' 32 32)
  have h2 := BitVec.le_toInt (p.cw1.extractLsb' 32 32)
  simp only [Nat.add_one_sub_one, Int.reducePow, Int.reduceNeg] at h1 h2
  exact Bool.and_eq_true_iff.2 ⟨decide_eq_true h2, decide_eq_true (by unfold eOf; omega)⟩

theorem fitsLen_lenOf (p : Packet) : fitsLen (lenOf p) = true := by
  have h := (p.cw0.extractLsb' 16 7).isLt
  exact decide_eq_true h

/-- A packet is its 192 bits (R50). -/
theorem packetOfBits_packetBits (p : Packet) : packetOfBits (packetBits p) = p := by
  obtain ⟨x, y, z⟩ := p
  have h0 : (packetBits ⟨x, y, z⟩).extractLsb' 0 64 = x := by
    apply BitVec.eq_of_getLsbD_eq
    intro i hi
    simp [getLsbD_packetBits, hi, -BitVec.getLsbD_eq_getElem]
  have h1 : (packetBits ⟨x, y, z⟩).extractLsb' 64 64 = y := by
    apply BitVec.eq_of_getLsbD_eq
    intro i hi
    simp [getLsbD_packetBits, hi, -BitVec.getLsbD_eq_getElem]
  have h2 : (packetBits ⟨x, y, z⟩).extractLsb' 128 64 = z := by
    apply BitVec.eq_of_getLsbD_eq
    intro i hi
    have a1 : ¬ 128 + i < 64 := by omega
    have a2 : ¬ 128 + i - 64 < 64 := by omega
    have a3 : 128 + i - 64 - 64 = i := by omega
    simp [getLsbD_packetBits, hi, a1, a2, a3, -BitVec.getLsbD_eq_getElem]
  simp [packetOfBits, h0, h1, h2]

end Sys2Proof
end

