-- ==== Sys2Proof/Laws/PerInstr.lean ====
section
/-! SUPPORT. One lemma per command: the packet the encoder writes has the command's opcode in `CW0[7:0]` and zero in the
reserved bits (spec/30_encoding.md R51, R53, R59). -/

namespace Sys2Proof.Laws.EncodedHeader

/-- The encoder writes the command's opcode and leaves `rsv` zero. -/
def Statement (i : Instr) : Prop := opcodeOf (encode i) = i.opcode ∧ rsvOf (encode i) = 0

theorem nop : Statement (.nop) :=
  ⟨packCw0_opcode .., packCw0_rsv ..⟩

theorem dset (d : Fin 16) (a e : Int) (b : Bool) : Statement (.dset d a e b) :=
  ⟨packCw0_opcode .., packCw0_rsv ..⟩

theorem dview (d r : Fin 16) (a e : Int) : Statement (.dview d r a e) :=
  ⟨packCw0_opcode .., packCw0_rsv ..⟩

theorem dimm (d r : Fin 16) : Statement (.dimm d r) :=
  ⟨packCw0_opcode .., packCw0_rsv ..⟩

theorem size (d : Fin 16) : Statement (.size d) :=
  ⟨packCw0_opcode .., packCw0_rsv ..⟩

theorem mrd (a : Int) : Statement (.mrd a) :=
  ⟨packCw0_opcode .., packCw0_rsv ..⟩

theorem mwr (a : Int) (v : Word) : Statement (.mwr a v) :=
  ⟨packCw0_opcode .., packCw0_rsv ..⟩

theorem getbit (d : Fin 16) (a : Int) : Statement (.getbit d a) :=
  ⟨packCw0_opcode .., packCw0_rsv ..⟩

theorem getbits (d : Fin 16) (a : Int) (len : Nat) : Statement (.getbits d a len) :=
  ⟨packCw0_opcode .., packCw0_rsv ..⟩

theorem rset (d : Fin 16) (a e : Int) : Statement (.rset d a e) :=
  ⟨packCw0_opcode .., packCw0_rsv ..⟩

theorem rclr (d : Fin 16) (a e : Int) : Statement (.rclr d a e) :=
  ⟨packCw0_opcode .., packCw0_rsv ..⟩

theorem rxor (d : Fin 16) (a e : Int) : Statement (.rxor d a e) :=
  ⟨packCw0_opcode .., packCw0_rsv ..⟩

theorem wbitSet (d : Fin 16) (a : Int) (b : Bool) : Statement (.wbitSet d a b) :=
  ⟨packCw0_opcode .., packCw0_rsv ..⟩

theorem wbitAnd (d : Fin 16) (a : Int) (b : Bool) : Statement (.wbitAnd d a b) :=
  ⟨packCw0_opcode .., packCw0_rsv ..⟩

theorem wbitOr (d : Fin 16) (a : Int) (b : Bool) : Statement (.wbitOr d a b) :=
  ⟨packCw0_opcode .., packCw0_rsv ..⟩

theorem wbitXor (d : Fin 16) (a : Int) (b : Bool) : Statement (.wbitXor d a b) :=
  ⟨packCw0_opcode .., packCw0_rsv ..⟩

theorem wbitsSet (d : Fin 16) (a : Int) (len : Nat) (v : Word) : Statement (.wbitsSet d a len v) :=
  ⟨packCw0_opcode .., packCw0_rsv ..⟩

theorem wbitsAnd (d : Fin 16) (a : Int) (len : Nat) (v : Word) : Statement (.wbitsAnd d a len v) :=
  ⟨packCw0_opcode .., packCw0_rsv ..⟩

theorem wbitsOr (d : Fin 16) (a : Int) (len : Nat) (v : Word) : Statement (.wbitsOr d a len v) :=
  ⟨packCw0_opcode .., packCw0_rsv ..⟩

theorem wbitsXor (d : Fin 16) (a : Int) (len : Nat) (v : Word) : Statement (.wbitsXor d a len v) :=
  ⟨packCw0_opcode .., packCw0_rsv ..⟩

theorem wfillSet (d : Fin 16) (b : Bool) : Statement (.wfillSet d b) :=
  ⟨packCw0_opcode .., packCw0_rsv ..⟩

theorem wfillAnd (d : Fin 16) (b : Bool) : Statement (.wfillAnd d b) :=
  ⟨packCw0_opcode .., packCw0_rsv ..⟩

theorem wfillOr (d : Fin 16) (b : Bool) : Statement (.wfillOr d b) :=
  ⟨packCw0_opcode .., packCw0_rsv ..⟩

theorem wfillXor (d : Fin 16) (b : Bool) : Statement (.wfillXor d b) :=
  ⟨packCw0_opcode .., packCw0_rsv ..⟩

theorem wrangeSet (d : Fin 16) (a e : Int) (b : Bool) : Statement (.wrangeSet d a e b) :=
  ⟨packCw0_opcode .., packCw0_rsv ..⟩

theorem wrangeAnd (d : Fin 16) (a e : Int) (b : Bool) : Statement (.wrangeAnd d a e b) :=
  ⟨packCw0_opcode .., packCw0_rsv ..⟩

theorem wrangeOr (d : Fin 16) (a e : Int) (b : Bool) : Statement (.wrangeOr d a e b) :=
  ⟨packCw0_opcode .., packCw0_rsv ..⟩

theorem wrangeXor (d : Fin 16) (a e : Int) (b : Bool) : Statement (.wrangeXor d a e b) :=
  ⟨packCw0_opcode .., packCw0_rsv ..⟩

theorem wstoreSet (d r : Fin 16) (a : Int) : Statement (.wstoreSet d r a) :=
  ⟨packCw0_opcode .., packCw0_rsv ..⟩

theorem wstoreAnd (d r : Fin 16) (a : Int) : Statement (.wstoreAnd d r a) :=
  ⟨packCw0_opcode .., packCw0_rsv ..⟩

theorem wstoreOr (d r : Fin 16) (a : Int) : Statement (.wstoreOr d r a) :=
  ⟨packCw0_opcode .., packCw0_rsv ..⟩

theorem wstoreXor (d r : Fin 16) (a : Int) : Statement (.wstoreXor d r a) :=
  ⟨packCw0_opcode .., packCw0_rsv ..⟩

end Sys2Proof.Laws.EncodedHeader
end

