-- ==== Sys2Proof/Laws/Spelling.lean ====
section
/-! SUPPORT. Where the commands that `NEW` spells are packets, and what its `DSET` does where they are not (log entry 9). -/

namespace Sys2Proof.Machine

/-- Both commands of a `NEW` are well-formed exactly if its bounds and their difference fit a 32-bit field. -/
theorem expand_new_wellFormed (d : Fin 16) (a e : Int) :
    (∀ i ∈ expand (.new d a e), i.wellFormed = true) ↔
      fitsI32 a = true ∧ fitsI32 e = true ∧ fitsI32 (e - a) = true := by
  have h0 : fitsI32 0 = true := rfl
  simp [expand, Instr.wellFormed, h0, and_assoc]

/-- Bounds inside an engine of an admitted size fit, and so does their difference. -/
theorem fits_of_window (n : Nat) (a e : Int) (hn : n ≤ Config.maxWords) (h0 : 0 ≤ a) (h1 : a ≤ e)
    (h2 : e ≤ ((64 * n : Nat) : Int)) : fitsI32 a = true ∧ fitsI32 e = true ∧ fitsI32 (e - a) = true := by
  simp only [Config.maxWords] at hn
  simp only [fitsI32, Bool.and_eq_true, decide_eq_true_eq]
  omega

/-- Where the difference of two 32-bit bounds does not fit, the `DSET` of the `NEW` fails. -/
theorem windowCheck_of_not_fits (nbits : Nat) (a e : Int) (ha : fitsI32 a = true) (he : fitsI32 e = true)
    (h : fitsI32 (e - a) = false) : windowCheck nbits a e = some .invalidArgument := by
  cases hc : windowCheck nbits a e with
  | some c => rw [windowCheck_some _ _ _ _ hc]
  | none =>
    have hw := (windowCheck_eq_none _ _ _).1 hc
    simp only [fitsI32, Bool.and_eq_true, Bool.and_eq_false_iff, decide_eq_true_eq, decide_eq_false_iff_not] at *
    omega

end Sys2Proof.Machine
end

