-- ==== Sys2Proof/Tests/Slice0.lean ====
section
/-! SUPPORT. Tests of the model on fixed values: the well-formedness checks, packets written out from spec/30_encoding.md,
vectors of spec/95_test_vectors.md (one step each), and a named witness for the hypotheses of every statement. -/

namespace Sys2Proof.Tests

open Sys2Proof.Machine

-- One theorem after the other: elaborated side by side, the kernel evaluations below would each hold a thread.
set_option Elab.async false

/-! ## WellFormed: each check refuses a term -/

theorem test_wellFormed_accepts_extremes :
    (Instr.dset 15 (-2147483648) 2147483647 true).wellFormed = true ∧
    (Instr.getbits 15 (-1) 127).wellFormed = true ∧ Instr.nop.wellFormed = true := by decide

theorem test_wellFormed_refuses_a_too_low : (Instr.getbit 0 (-2147483649)).wellFormed = false := by decide
theorem test_wellFormed_refuses_a_too_high : (Instr.mwr 2147483648 0).wellFormed = false := by decide
theorem test_wellFormed_refuses_b_too_low : (Instr.rset 0 0 (-2147483649)).wellFormed = false := by decide
theorem test_wellFormed_refuses_b_too_high : (Instr.wrangeXor 0 0 2147483648 true).wellFormed = false := by decide
theorem test_wellFormed_refuses_len : (Instr.wbitsOr 0 0 128 0).wellFormed = false := by decide

/-! ## Decode: packets written out field by field from R51 and R53

`CW0` is written `b`, `len`, `s`, `d`, `opcode` from its bit 23 down; `CW1` is `B` above `A`; `CW2` is `V`. -/

theorem test_decode_word_storage :
    decode ⟨0b0_0000000_0000_0000_00000000, 0x0000000000000000, 0x0000000000000000⟩ = .ok .nop ∧
    decode ⟨0b0_0000000_0000_1101_00000001, 0xF6BA691E001E848D, 0x0000000000000000⟩ = .ok (.dset 13 2000013 (-155555554) false) ∧
    decode ⟨0b0_0000000_0111_0010_00000010, 0x0DE86253FFD23930, 0x0000000000000000⟩ = .ok (.dview 2 7 (-3000016) 233333331) ∧
    decode ⟨0b0_0000000_0010_0111_00000011, 0x0000000000000000, 0x0000000000000000⟩ = .ok (.dimm 7 2) ∧
    decode ⟨0b0_0000000_0000_1100_00000100, 0x0000000000000000, 0x0000000000000000⟩ = .ok (.size 12) ∧
    decode ⟨0b0_0000000_0000_0000_00001000, 0x00000000005B8D99, 0x0000000000000000⟩ = .ok (.mrd 6000025) ∧
    decode ⟨0b0_0000000_0000_0000_00001001, 0x00000000FF953024, 0xF8091A2B3C4D5E70⟩ = .ok (.mwr (-7000028) 0xF8091A2B3C4D5E70) := by decide +kernel

theorem test_decode_bit_access :
    decode ⟨0b0_0000000_0000_1011_00010000, 0x00000000007A121F, 0x0000000000000000⟩ = .ok (.getbit 11 8000031) ∧
    decode ⟨0b0_0001110_0000_0000_00010001, 0x00000000FF76AB9E, 0x0000000000000000⟩ = .ok (.getbits 0 (-9000034) 14) := by decide +kernel

theorem test_decode_range_algebra :
    decode ⟨0b0_0000000_0000_0101_00100000, 0xD1A40D96009896A5, 0x0000000000000000⟩ = .ok (.rset 5 10000037 (-777777770)) ∧
    decode ⟨0b0_0000000_0000_1010_00100001, 0x32FEBDDBFF582718, 0x0000000000000000⟩ = .ok (.rclr 10 (-11000040) 855555547) ∧
    decode ⟨0b0_0000000_0000_1111_00100010, 0xC85E76B400B71B2B, 0x0000000000000000⟩ = .ok (.rxor 15 12000043 (-933333324)) := by decide +kernel

theorem test_decode_wbit :
    decode ⟨0b1_0000000_0000_0100_01000000, 0x00000000FF39A292, 0x0000000000000000⟩ = .ok (.wbitSet 4 (-13000046) true) ∧
    decode ⟨0b0_0000000_0000_1001_01000001, 0x0000000000D59FB1, 0x0000000000000000⟩ = .ok (.wbitAnd 9 14000049 false) ∧
    decode ⟨0b1_0000000_0000_1110_01000010, 0x00000000FF1B1E0C, 0x0000000000000000⟩ = .ok (.wbitOr 14 (-15000052) true) ∧
    decode ⟨0b0_0000000_0000_0011_01000011, 0x0000000000F42437, 0x0000000000000000⟩ = .ok (.wbitXor 3 16000055 false) := by decide +kernel

theorem test_decode_wbits :
    decode ⟨0b0_0110110_0000_1000_01000100, 0x00000000FEFC9986, 0xECA8641FDB975310⟩ = .ok (.wbitsSet 8 (-17000058) 54 0xECA8641FDB975310) ∧
    decode ⟨0b0_1011011_0000_1101_01000101, 0x000000000112A8BD, 0xEB851EB851EB8520⟩ = .ok (.wbitsAnd 13 18000061 91 0xEB851EB851EB8520) ∧
    decode ⟨0b0_0000000_0000_0010_01000110, 0x00000000FEDE1500, 0xEA61D950C83FB730⟩ = .ok (.wbitsOr 2 (-19000064) 0 0xEA61D950C83FB730) ∧
    decode ⟨0b0_0100101_0000_0111_01000111, 0x0000000001312D43, 0xE93E93E93E93E940⟩ = .ok (.wbitsXor 7 20000067 37 0xE93E93E93E93E940) := by decide +kernel

theorem test_decode_wfill :
    decode ⟨0b1_0000000_0000_1100_01001000, 0x0000000000000000, 0x0000000000000000⟩ = .ok (.wfillSet 12 true) ∧
    decode ⟨0b0_0000000_0000_0001_01001001, 0x0000000000000000, 0x0000000000000000⟩ = .ok (.wfillAnd 1 false) ∧
    decode ⟨0b1_0000000_0000_0110_01001010, 0x0000000000000000, 0x0000000000000000⟩ = .ok (.wfillOr 6 true) ∧
    decode ⟨0b0_0000000_0000_1011_01001011, 0x0000000000000000, 0x0000000000000000⟩ = .ok (.wfillXor 11 false) := by decide +kernel

theorem test_decode_wrange :
    decode ⟨0b1_0000000_0000_0000_01001100, 0x73E5DE09FE82876E, 0x0000000000000000⟩ = .ok (.wrangeSet 0 (-25000082) 1944444425 true) ∧
    decode ⟨0b0_0000000_0000_0101_01001101, 0x87775686018CBAD5, 0x0000000000000000⟩ = .ok (.wrangeAnd 5 26000085 (-2022222202) false) ∧
    decode ⟨0b1_0000000_0000_1010_01001110, 0x7D2B74EBFE6402E8, 0x0000000000000000⟩ = .ok (.wrangeOr 10 (-27000088) 2099999979 true) ∧
    decode ⟨0b0_0000000_0000_1111_01001111, 0xFE31BFA401AB3F5B, 0x0000000000000000⟩ = .ok (.wrangeXor 15 28000091 (-30294108) false) := by decide +kernel

theorem test_decode_wstore :
    decode ⟨0b0_0000000_0101_0100_01010000, 0x00000000FE457E62, 0x0000000000000000⟩ = .ok (.wstoreSet 4 5 (-29000094)) ∧
    decode ⟨0b0_0000000_0000_1001_01010001, 0x0000000001C9C3E1, 0x0000000000000000⟩ = .ok (.wstoreAnd 9 0 30000097) ∧
    decode ⟨0b0_0000000_1011_1110_01010010, 0x00000000FE26F9DC, 0x0000000000000000⟩ = .ok (.wstoreOr 14 11 (-31000100)) ∧
    decode ⟨0b0_0000000_0110_0011_01010011, 0x0000000001E84867, 0x0000000000000000⟩ = .ok (.wstoreXor 3 6 32000103) := by decide +kernel

/-- R55: a reserved bit (vectors V-E1, V-E2) and the opcodes around the table's rows (V-E3 to V-E6) do not decode. -/
theorem test_decode_refuses :
    decode ⟨0x0000000001000010, 0, 0⟩ = .error .reservedBits ∧
    decode ⟨0x8000000000000000, 0, 0⟩ = .error .reservedBits ∧
    decode ⟨0x05, 0, 0⟩ = .error (.noSuchCommand 0x05) ∧ decode ⟨0x23, 0, 0⟩ = .error (.noSuchCommand 0x23) ∧
    decode ⟨0x3F, 0, 0⟩ = .error (.noSuchCommand 0x3F) ∧ decode ⟨0x54, 0, 0⟩ = .error (.noSuchCommand 0x54) ∧
    decode ⟨0xFF, 0, 0⟩ = .error (.noSuchCommand 0xFF) := by decide +kernel

/-- R59: `GETBIT D0, -1` as one number, numbered as R50 numbers the packet. -/
theorem test_decodeTableWord :
    decodeTableWord 192 0xFFFFFFFF0000000000000010 = some (.getbit 0 (-1)) ∧
    decodeTableWord 64 0x0000000000800001 = some (.dset 0 0 0 true) ∧
    decodeTableWord 64 0x0000000001000000 = none := by decide +kernel

/-! ## One step: vectors of spec/95_test_vectors.md -/

/-- An engine of four words with these contents and these descriptors; the others are `(0, 0, 0)`. -/
def engine (a b c d : Word) (ds : List (Fin 16 × Descriptor)) : State :=
  ds.foldl (fun s x => s.setWindow x.1 x.2) { State.resetOf 4 with wm := [(0, a), (1, b), (2, c), (3, d)] }

/-- The four words. -/
def wordsOf (s : State) : List Word := [s.word 0, s.word 1, s.word 2, s.word 3]

/-- The next state of an outcome, if it is one. -/
def nextOf : Host.Outcome State Fault Refusal → Option State
  | .next t => some t
  | .fault _ => none
  | .refused _ => none

/-- The response and the four words after the step that takes packet `p`, if the descriptors are as they were. -/
def afterWords (s : State) (p : Packet) : Option (Resp × List Word) :=
  (nextOf (step (s.issue p))).bind fun t => if t.desc = s.desc then some (t.resp, wordsOf t) else none

/-- The response and window `d` after the step that takes packet `p`, if the words and the other windows are as they were. -/
def afterWindow (s : State) (p : Packet) (d : Fin 16) : Option (Resp × Descriptor) :=
  (nextOf (step (s.issue p))).bind fun t =>
    if wordsOf t = wordsOf s ∧ t.desc = s.desc.set d (t.window d) then some (t.resp, t.window d) else none

/-- The start of the word storage vectors (spec/95_test_vectors.md). -/
def startD : State := engine 0x1111111111111111 0x2222222222222222 0x3333333333333333 0x4444444444444444
  [(0, ⟨60, 200, true⟩), (1, ⟨8, 16, false⟩)]

/-- The start of the decode vectors (spec/95_test_vectors.md). -/
def startE : State := engine 0x0000000000000005 0 0 0
  [(0, ⟨0, 8, true⟩)]

/-- The start of the bit access vectors (spec/95_test_vectors.md). -/
def startB : State := engine 0xF000000000000000 0x00123456789ABCDE 0x8000000000000001 0x00000000000000A5
  [(0, ⟨60, 200, true⟩), (1, ⟨0, 256, false⟩), (2, ⟨200, 200, true⟩)]

/-- The start of the range vectors (spec/95_test_vectors.md). -/
def startR : State := engine 0x00000000000000FF 0x0F0F0F0F0F0F0F0F 0 0xFFFFFFFFFFFFFFFF
  [(0, ⟨60, 200, true⟩), (1, ⟨0, 256, true⟩), (2, ⟨60, 200, false⟩)]

/-- The start of the bit and span vectors (spec/95_test_vectors.md). -/
def startW : State := engine 0xA000000000000000 0x00000000000000F0 0xFFFFFFFFFFFFFFFF 0
  [(0, ⟨60, 200, true⟩), (1, ⟨60, 200, false⟩), (2, ⟨64, 128, true⟩)]

/-- The start of the fill and range vectors (spec/95_test_vectors.md). -/
def startF : State := engine 0xA00000000000003C 0x00000000000000F0 0 0x0000000000000F0F
  [(0, ⟨60, 200, true⟩), (1, ⟨60, 200, false⟩), (2, ⟨200, 200, true⟩)]

/-- The start of the store vectors (spec/95_test_vectors.md). -/
def startS : State := engine 0x0123456789ABA5C3 0xFFFF0000FFFF0000 0x00000000000000FF 0x000000000000000A
  [(0, ⟨0, 16, true⟩), (1, ⟨4, 16, true⟩), (2, ⟨64, 192, true⟩), (3, ⟨0, 100, false⟩), (4, ⟨100, 200, true⟩), (5, ⟨192, 196, true⟩), (6, ⟨196, 196, true⟩), (7, ⟨8, 12, false⟩)]

/-- The program P3 before its first `WSTORE` (spec/95_test_vectors.md). -/
def startP3 : State := engine 0x1111111111111111 0x2222222222222222 0x3333333333333333 0
  [(0, ⟨0, 192, true⟩), (1, ⟨8, 136, true⟩), (2, ⟨0, 192, false⟩)]

/-- The program P3 before its last `WSTORE` (spec/95_test_vectors.md). -/
def startP3b : State := engine 0x1111111111111111 0x2222222222222211 0x3333333333333322 0
  [(0, ⟨0, 192, true⟩), (1, ⟨8, 136, true⟩), (2, ⟨0, 192, false⟩)]

/-! ### Word storage -/

/-- V-D1: `NOP`. -/
theorem test_nop_v_d1 :
    afterWords startD ⟨0, 0, 0⟩ = some (⟨.ok, 0⟩, wordsOf startD) := by decide +kernel

/-- V-E8: `NOP`, junk in the unused fields. -/
theorem test_nop_v_e8 :
    afterWords startE ⟨0x0000000000FFFF00, 0xFFFFFFFFFFFFFFFF, 0xFFFFFFFFFFFFFFFF⟩ = some (⟨.ok, 0⟩, wordsOf startE) := by decide +kernel

/-- V-D2: `DSET D2, 0, 256, 1`. -/
theorem test_dset_v_d2 :
    afterWindow startD ⟨0x0000000000800201, 0x0000010000000000, 0⟩ 2 = some (⟨.ok, 0⟩, ⟨0, 256, true⟩) := by decide +kernel

/-- V-D4: `DSET D2, 0, 257, 1`. -/
theorem test_dset_v_d4 :
    afterWords startD ⟨0x0000000000800201, 0x0000010100000000, 0⟩ = some (⟨.invalidArgument, 0⟩, wordsOf startD) := by decide +kernel

/-- V-D10: `DVIEW D0, D0, 10, 10`. -/
theorem test_dview_v_d10 :
    afterWindow startD ⟨0x0000000000000002, 0x0000000A0000000A, 0⟩ 0 = some (⟨.ok, 0⟩, ⟨70, 70, true⟩) := by decide +kernel

/-- V-D9: `DVIEW D2, D1, 0, 8`. -/
theorem test_dview_v_d9 :
    afterWindow startD ⟨0x0000000000001202, 0x0000000800000000, 0⟩ 2 = some (⟨.ok, 0⟩, ⟨8, 16, false⟩) := by decide +kernel

/-- V-D15: `DIMM D0, D0`. -/
theorem test_dimm_v_d15 :
    afterWindow startD ⟨0x0000000000000003, 0, 0⟩ 0 = some (⟨.ok, 0⟩, ⟨60, 200, false⟩) := by decide +kernel

/-- V-D14: `DIMM D2, D0`. -/
theorem test_dimm_v_d14 :
    afterWindow startD ⟨0x0000000000000203, 0, 0⟩ 2 = some (⟨.ok, 0⟩, ⟨60, 200, false⟩) := by decide +kernel

/-- V-D16: `SIZE D0`. -/
theorem test_size_v_d16 :
    afterWords startD ⟨0x0000000000000004, 0, 0⟩ = some (⟨.ok, 0x8C⟩, wordsOf startD) := by decide +kernel

/-- V-D18: `MRD 3`. -/
theorem test_mrd_v_d18 :
    afterWords startD ⟨0x0000000000000008, 0x0000000000000003, 0⟩ = some (⟨.ok, 0x4444444444444444⟩, wordsOf startD) := by decide +kernel

/-- V-D19: `MRD 4`. -/
theorem test_mrd_v_d19 :
    afterWords startD ⟨0x0000000000000008, 0x0000000000000004, 0⟩ = some (⟨.invalidArgument, 0⟩, wordsOf startD) := by decide +kernel

/-- V-D21: `MWR 0, 0xFFFFFFFFFFFFFFFF`. -/
theorem test_mwr_v_d21 :
    afterWords startD ⟨0x0000000000000009, 0, 0xFFFFFFFFFFFFFFFF⟩ =
      some (⟨.ok, 0⟩, [0xFFFFFFFFFFFFFFFF, 0x2222222222222222, 0x3333333333333333, 0x4444444444444444]) := by decide +kernel

/-- V-D22: `MWR 4, 0x1`. -/
theorem test_mwr_v_d22 :
    afterWords startD ⟨0x0000000000000009, 0x0000000000000004, 0x0000000000000001⟩ = some (⟨.invalidArgument, 0⟩, wordsOf startD) := by decide +kernel

/-! ### Bit access -/

/-- V-B3: `GETBIT D0, 139`. -/
theorem test_getbit_v_b3 :
    afterWords startB ⟨0x0000000000000010, 0x000000000000008B, 0⟩ = some (⟨.ok, 0x1⟩, wordsOf startB) := by decide +kernel

/-- V-E7: `GETBIT D0, 2`, junk in the unused fields. -/
theorem test_getbit_v_e7 :
    afterWords startE ⟨0x0000000000FFF010, 0xDEADBEEF00000002, 0x0000000123456789⟩ = some (⟨.ok, 0x1⟩, wordsOf startE) := by decide +kernel

/-- V-B6: `GETBITS D0, 0, 64`. -/
theorem test_getbits_v_b6 :
    afterWords startB ⟨0x0000000000400011, 0, 0⟩ = some (⟨.ok, 0x123456789ABCDEF⟩, wordsOf startB) := by decide +kernel

/-- V-B9: `GETBITS D0, 140, 0`. -/
theorem test_getbits_v_b9 :
    afterWords startB ⟨0x0000000000000011, 0x000000000000008C, 0⟩ = some (⟨.ok, 0⟩, wordsOf startB) := by decide +kernel

/-! ### Range algebra -/

/-- V-R7: `RSET D1, 100, 200`. -/
theorem test_rset_v_r7 :
    afterWords startR ⟨0x0000000000000120, 0x000000C800000064, 0⟩ =
      some (⟨.ok, 0⟩, [0x00000000000000FF, 0xFFFFFFFF0F0F0F0F, 0xFFFFFFFFFFFFFFFF, 0xFFFFFFFFFFFFFFFF]) := by decide +kernel

/-- V-R5: `RSET D1, 64, 64`. -/
theorem test_rset_v_r5 :
    afterWords startR ⟨0x0000000000000120, 0x0000004000000040, 0⟩ = some (⟨.ok, 0⟩, wordsOf startR) := by decide +kernel

/-- V-R2: `RCLR D0, 0, 140`. -/
theorem test_rclr_v_r2 :
    afterWords startR ⟨0x0000000000000021, 0x0000008C00000000, 0⟩ =
      some (⟨.ok, 0⟩, [0x00000000000000FF, 0, 0, 0xFFFFFFFFFFFFFF00]) := by decide +kernel

/-- V-R17: `RCLR D2, 7, 7`. -/
theorem test_rclr_v_r17 :
    afterWords startR ⟨0x0000000000000221, 0x0000000700000007, 0⟩ = some (⟨.invalidState, 0⟩, wordsOf startR) := by decide +kernel

/-- V-R9: `RXOR D1, 60, 70`. -/
theorem test_rxor_v_r9 :
    afterWords startR ⟨0x0000000000000122, 0x000000460000003C, 0⟩ =
      some (⟨.ok, 0⟩, [0xF0000000000000FF, 0x0F0F0F0F0F0F0F30, 0, 0xFFFFFFFFFFFFFFFF]) := by decide +kernel

/-- V-R6: `RXOR D1, 256, 256`. -/
theorem test_rxor_v_r6 :
    afterWords startR ⟨0x0000000000000122, 0x0000010000000100, 0⟩ = some (⟨.ok, 0⟩, wordsOf startR) := by decide +kernel

/-! ### Combinator on a bit and a span -/

/-- V-W1: `WBIT.SET D0, 1, 0`. -/
theorem test_wbit_set_v_w1 :
    afterWords startW ⟨0x0000000000000040, 0x0000000000000001, 0⟩ =
      some (⟨.ok, 0⟩, [0x8000000000000000, 0x00000000000000F0, 0xFFFFFFFFFFFFFFFF, 0]) := by decide +kernel

/-- V-W23: `WBIT.SET D1, -5, 1`. -/
theorem test_wbit_set_v_w23 :
    afterWords startW ⟨0x0000000000800140, 0x00000000FFFFFFFB, 0⟩ = some (⟨.invalidArgument, 0⟩, wordsOf startW) := by decide +kernel

/-- V-W3: `WBIT.AND D0, 3, 0`. -/
theorem test_wbit_and_v_w3 :
    afterWords startW ⟨0x0000000000000041, 0x0000000000000003, 0⟩ =
      some (⟨.ok, 0⟩, [0x2000000000000000, 0x00000000000000F0, 0xFFFFFFFFFFFFFFFF, 0]) := by decide +kernel

/-- V-W4: `WBIT.AND D0, 3, 1`. -/
theorem test_wbit_and_v_w4 :
    afterWords startW ⟨0x0000000000800041, 0x0000000000000003, 0⟩ = some (⟨.ok, 0⟩, wordsOf startW) := by decide +kernel

/-- V-W5: `WBIT.OR D0, 0, 1`. -/
theorem test_wbit_or_v_w5 :
    afterWords startW ⟨0x0000000000800042, 0, 0⟩ =
      some (⟨.ok, 0⟩, [0xB000000000000000, 0x00000000000000F0, 0xFFFFFFFFFFFFFFFF, 0]) := by decide +kernel

/-- V-W20: `WBIT.OR D1, 0, 0`. -/
theorem test_wbit_or_v_w20 :
    afterWords startW ⟨0x0000000000000142, 0, 0⟩ = some (⟨.invalidState, 0⟩, wordsOf startW) := by decide +kernel

/-- V-W6: `WBIT.XOR D0, 139, 1`. -/
theorem test_wbit_xor_v_w6 :
    afterWords startW ⟨0x0000000000800043, 0x000000000000008B, 0⟩ =
      some (⟨.ok, 0⟩, [0xA000000000000000, 0x00000000000000F0, 0xFFFFFFFFFFFFFFFF, 0x0000000000000080]) := by decide +kernel

/-- V-W7: `WBITS.SET D0, 0, 64, 0x0123456789ABCDEF`. -/
theorem test_wbits_set_v_w7 :
    afterWords startW ⟨0x0000000000400044, 0, 0x0123456789ABCDEF⟩ =
      some (⟨.ok, 0⟩, [0xF000000000000000, 0x00123456789ABCDE, 0xFFFFFFFFFFFFFFFF, 0]) := by decide +kernel

/-- V-W22: `WBITS.SET D1, 0, 65, 0x0`. -/
theorem test_wbits_set_v_w22 :
    afterWords startW ⟨0x0000000000410144, 0, 0⟩ = some (⟨.invalidArgument, 0⟩, wordsOf startW) := by decide +kernel

/-- V-W10: `WBITS.AND D0, 4, 8, 0x0F`. -/
theorem test_wbits_and_v_w10 :
    afterWords startW ⟨0x0000000000080045, 0x0000000000000004, 0x000000000000000F⟩ =
      some (⟨.ok, 0⟩, [0xA000000000000000, 0, 0xFFFFFFFFFFFFFFFF, 0]) := by decide +kernel

/-- V-W11: `WBITS.AND D0, 68, 64, 0x00FF00FF00FF00FF`. -/
theorem test_wbits_and_v_w11 :
    afterWords startW ⟨0x0000000000400045, 0x0000000000000044, 0x00FF00FF00FF00FF⟩ =
      some (⟨.ok, 0⟩, [0xA000000000000000, 0x00000000000000F0, 0x00FF00FF00FF00FF, 0]) := by decide +kernel

/-- V-W12: `WBITS.OR D0, 2, 8, 0xFFFFFFFFFFFFFF00`. -/
theorem test_wbits_or_v_w12 :
    afterWords startW ⟨0x0000000000080046, 0x0000000000000002, 0xFFFFFFFFFFFFFF00⟩ = some (⟨.ok, 0⟩, wordsOf startW) := by decide +kernel

/-- V-W13: `WBITS.OR D0, 130, 10, 0x3FF`. -/
theorem test_wbits_or_v_w13 :
    afterWords startW ⟨0x00000000000A0046, 0x0000000000000082, 0x00000000000003FF⟩ =
      some (⟨.ok, 0⟩, [0xA000000000000000, 0x00000000000000F0, 0xFFFFFFFFFFFFFFFF, 0x00000000000000FF]) := by decide +kernel

/-- V-W14: `WBITS.XOR D0, 66, 4, 0xF`. -/
theorem test_wbits_xor_v_w14 :
    afterWords startW ⟨0x0000000000040047, 0x0000000000000042, 0x000000000000000F⟩ =
      some (⟨.ok, 0⟩, [0xA000000000000000, 0xC0000000000000F0, 0xFFFFFFFFFFFFFFFC, 0]) := by decide +kernel

/-- V-W15: `WBITS.XOR D0, 0, 0, 0xFFFFFFFFFFFFFFFF`. -/
theorem test_wbits_xor_v_w15 :
    afterWords startW ⟨0x0000000000000047, 0, 0xFFFFFFFFFFFFFFFF⟩ = some (⟨.ok, 0⟩, wordsOf startW) := by decide +kernel

/-! ### Combinator with a constant -/

/-- V-F1: `WFILL.SET D0, 0`. -/
theorem test_wfill_set_v_f1 :
    afterWords startF ⟨0x0000000000000048, 0, 0⟩ =
      some (⟨.ok, 0⟩, [0x000000000000003C, 0, 0, 0x0000000000000F00]) := by decide +kernel

/-- V-F2: `WFILL.SET D0, 1`. -/
theorem test_wfill_set_v_f2 :
    afterWords startF ⟨0x0000000000800048, 0, 0⟩ =
      some (⟨.ok, 0⟩, [0xF00000000000003C, 0xFFFFFFFFFFFFFFFF, 0xFFFFFFFFFFFFFFFF, 0x0000000000000FFF]) := by decide +kernel

/-- V-F3: `WFILL.AND D0, 0`. -/
theorem test_wfill_and_v_f3 :
    afterWords startF ⟨0x0000000000000049, 0, 0⟩ =
      some (⟨.ok, 0⟩, [0x000000000000003C, 0, 0, 0x0000000000000F00]) := by decide +kernel

/-- V-F17: `WFILL.AND D1, 1`. -/
theorem test_wfill_and_v_f17 :
    afterWords startF ⟨0x0000000000800149, 0, 0⟩ = some (⟨.invalidState, 0⟩, wordsOf startF) := by decide +kernel

/-- V-F5: `WFILL.OR D0, 0`. -/
theorem test_wfill_or_v_f5 :
    afterWords startF ⟨0x000000000000004A, 0, 0⟩ = some (⟨.ok, 0⟩, wordsOf startF) := by decide +kernel

/-- V-F6: `WFILL.OR D0, 1`. -/
theorem test_wfill_or_v_f6 :
    afterWords startF ⟨0x000000000080004A, 0, 0⟩ =
      some (⟨.ok, 0⟩, [0xF00000000000003C, 0xFFFFFFFFFFFFFFFF, 0xFFFFFFFFFFFFFFFF, 0x0000000000000FFF]) := by decide +kernel

/-- V-F7: `WFILL.XOR D0, 0`. -/
theorem test_wfill_xor_v_f7 :
    afterWords startF ⟨0x000000000000004B, 0, 0⟩ = some (⟨.ok, 0⟩, wordsOf startF) := by decide +kernel

/-- V-F8: `WFILL.XOR D0, 1`. -/
theorem test_wfill_xor_v_f8 :
    afterWords startF ⟨0x000000000080004B, 0, 0⟩ =
      some (⟨.ok, 0⟩, [0x500000000000003C, 0xFFFFFFFFFFFFFF0F, 0xFFFFFFFFFFFFFFFF, 0x0000000000000FF0]) := by decide +kernel

/-- V-F10: `WRANGE.SET D0, 2, 12, 1`. -/
theorem test_wrange_set_v_f10 :
    afterWords startF ⟨0x000000000080004C, 0x0000000C00000002, 0⟩ =
      some (⟨.ok, 0⟩, [0xE00000000000003C, 0x00000000000000FF, 0, 0x0000000000000F0F]) := by decide +kernel

/-- V-F20: `WRANGE.SET D0, 0, 141, 1`. -/
theorem test_wrange_set_v_f20 :
    afterWords startF ⟨0x000000000080004C, 0x0000008D00000000, 0⟩ = some (⟨.invalidArgument, 0⟩, wordsOf startF) := by decide +kernel

/-- V-F11: `WRANGE.AND D0, 2, 12, 0`. -/
theorem test_wrange_and_v_f11 :
    afterWords startF ⟨0x000000000000004D, 0x0000000C00000002, 0⟩ =
      some (⟨.ok, 0⟩, [0x200000000000003C, 0, 0, 0x0000000000000F0F]) := by decide +kernel

/-- V-F12: `WRANGE.AND D0, 2, 12, 1`. -/
theorem test_wrange_and_v_f12 :
    afterWords startF ⟨0x000000000080004D, 0x0000000C00000002, 0⟩ = some (⟨.ok, 0⟩, wordsOf startF) := by decide +kernel

/-- V-F14: `WRANGE.OR D0, 2, 12, 1`. -/
theorem test_wrange_or_v_f14 :
    afterWords startF ⟨0x000000000080004E, 0x0000000C00000002, 0⟩ =
      some (⟨.ok, 0⟩, [0xE00000000000003C, 0x00000000000000FF, 0, 0x0000000000000F0F]) := by decide +kernel

/-- V-F22: `WRANGE.OR D1, 0, 141, 0`. -/
theorem test_wrange_or_v_f22 :
    afterWords startF ⟨0x000000000000014E, 0x0000008D00000000, 0⟩ = some (⟨.invalidArgument, 0⟩, wordsOf startF) := by decide +kernel

/-- V-F16: `WRANGE.XOR D0, 2, 12, 1`. -/
theorem test_wrange_xor_v_f16 :
    afterWords startF ⟨0x000000000080004F, 0x0000000C00000002, 0⟩ =
      some (⟨.ok, 0⟩, [0x600000000000003C, 0x000000000000000F, 0, 0x0000000000000F0F]) := by decide +kernel

/-- V-F19: `WRANGE.XOR D0, 140, 140, 1`. -/
theorem test_wrange_xor_v_f19 :
    afterWords startF ⟨0x000000000080004F, 0x0000008C0000008C, 0⟩ = some (⟨.ok, 0⟩, wordsOf startF) := by decide +kernel

/-! ### Combinator with a store -/

/-- V-S1: `WSTORE.SET D0, D1, 0`. -/
theorem test_wstore_set_v_s1 :
    afterWords startS ⟨0x0000000000001050, 0, 0⟩ =
      some (⟨.ok, 0⟩, [0x0123456789ABAA5C, 0xFFFF0000FFFF0000, 0x00000000000000FF, 0x000000000000000A]) := by decide +kernel

/-- program P3, `WSTORE.SET D0, D1, 16`: `WSTORE.SET D0, D1, 16`. -/
theorem test_wstore_set_p_30 :
    afterWords startP3 ⟨0x0000000000001050, 0x0000000000000010, 0⟩ =
      some (⟨.ok, 0⟩, [0x1111111111111111, 0x2222222222222211, 0x3333333333333322, 0]) := by decide +kernel

/-- V-S6: `WSTORE.AND D2, D3, 0`. -/
theorem test_wstore_and_v_s6 :
    afterWords startS ⟨0x0000000000003251, 0, 0⟩ =
      some (⟨.ok, 0⟩, [0x0123456789ABA5C3, 0x0123000089AB0000, 0, 0x000000000000000A]) := by decide +kernel

/-- V-S9: `WSTORE.AND D5, D7, 0`. -/
theorem test_wstore_and_v_s9 :
    afterWords startS ⟨0x0000000000007551, 0, 0⟩ =
      some (⟨.ok, 0⟩, [0x0123456789ABA5C3, 0xFFFF0000FFFF0000, 0x00000000000000FF, 0]) := by decide +kernel

/-- V-S5: `WSTORE.OR D2, D3, 28`. -/
theorem test_wstore_or_v_s5 :
    afterWords startS ⟨0x0000000000003252, 0x000000000000001C, 0⟩ =
      some (⟨.ok, 0⟩, [0x0123456789ABA5C3, 0xFFFFBA5CFFFF0000, 0x0FFFF000001234FF, 0x000000000000000A]) := by decide +kernel

/-- V-S3: `WSTORE.XOR D1, D1, 0`. -/
theorem test_wstore_xor_v_s3 :
    afterWords startS ⟨0x0000000000001153, 0, 0⟩ =
      some (⟨.ok, 0⟩, [0x0123456789AB0003, 0xFFFF0000FFFF0000, 0x00000000000000FF, 0x000000000000000A]) := by decide +kernel

/-- program P3, `WSTORE.XOR D1, D1, 0`: `WSTORE.XOR D1, D1, 0`. -/
theorem test_wstore_xor_p_35 :
    afterWords startP3b ⟨0x0000000000001153, 0, 0⟩ =
      some (⟨.ok, 0⟩, [0x0000000000000011, 0, 0x3333333333333300, 0]) := by decide +kernel

/-! ### The host's interface, reset, and states no run reaches -/

/-- Right after reset `GETBIT D0, 0` fails InvalidArgument: every window is empty (R19). -/
theorem test_withFetchWord_runs_the_command :
    nextOf (step (State.reset.withFetchWord 192 0x10)) = some (State.reset.raise .invalidArgument) := by decide +kernel

/-- A reset event empties the windows and clears `RESP` (R19). -/
theorem test_reset_event :
    (nextOf (step { startW with port := [.reset], resp := ⟨.ok, 5⟩ })).map (fun t => (t.window 0, t.resp)) =
      some (⟨0, 0, false⟩, ⟨.ok, 0⟩) := by decide +kernel

/-- A descriptor past the end of `WM`, which breaks R16, stops the model by name (log entry 6). -/
theorem test_noSuchWord :
    exec (.getbit 0 0) (startW.setWindow 0 ⟨256, 257, true⟩) = .fault (.noSuchWord 4) := by rfl

/-! ## Witnesses: the hypotheses of each statement, met by a concrete state and operands

`demo` is an engine of four words with a mutable window across word edges (0), an immutable one on the same bits (1), an
empty one (2), the whole of `WM` (3), one word (4) and a short one (5). -/

def demo : State :=
  engine 0xA000000000000000 0x00000000000000F0 0xFFFFFFFFFFFFFFFF 0
    [(0, ⟨60, 200, true⟩), (1, ⟨60, 200, false⟩), (2, ⟨200, 200, true⟩), (3, ⟨0, 256, true⟩), (4, ⟨64, 128, true⟩),
     (5, ⟨8, 12, true⟩)]

/-- A decidable property of the next state of an outcome that is one. -/
theorem exists_next {o : Host.Outcome State Fault Refusal} {P : State → Prop} [DecidablePred P]
    (h : (nextOf o).any (fun t => decide (P t)) = true) : ∃ t, o = .next t ∧ P t := by
  cases o with
  | next t => exact ⟨t, rfl, by simpa [nextOf] using h⟩
  | fault r => simp [nextOf] at h
  | refused r => simp [nextOf] at h

theorem demo_inv : demo.inv := by decide +kernel

theorem witness_DecodeInvertsEncode :
    (Instr.wbitsXor 15 (-2147483648) 127 ones).wellFormed = true ∧
    (Instr.wrangeSet 15 2147483647 (-1) true).wellFormed = true ∧ (Instr.dview 3 12 (-1) 5).wellFormed = true := by decide

theorem witness_DecodeGivesWellFormed :
    decode ⟨0x00000000007FFF44, 0x80000000, 0⟩ = .ok (.wbitsSet 15 (-2147483648) 127 0) := by decide +kernel

theorem witness_DecodeRefusesByName_reserved :
    rsvOf ⟨0x0000000001000000, 0, 0⟩ ≠ 0 ∧ rsvOf ⟨0x8000000000000000, 0, 0⟩ ≠ 0 := by decide +kernel

theorem witness_DecodeRefusesByName_no_such_opcode :
    rsvOf ⟨0x54, 0, 0⟩ = 0 ∧ opcodeOf ⟨0x54, 0, 0⟩ ∉ opcodes ∧
    rsvOf ⟨0x05, 0, 0⟩ = 0 ∧ opcodeOf ⟨0x05, 0, 0⟩ ∉ opcodes := by decide +kernel

theorem witness_DecodeRefusesByName_command :
    rsvOf ⟨0x53, 0, 0⟩ = 0 ∧ opcodeOf ⟨0x53, 0, 0⟩ ∈ opcodes ∧
    (demo.issue ⟨0x53, 0, 0⟩).port = .packet ⟨0x53, 0, 0⟩ :: [] := by decide +kernel

theorem witness_DecodeRefusesByName_undecodable :
    (demo.issue ⟨0xFF, 0, 0⟩).port = .packet ⟨0xFF, 0, 0⟩ :: [] ∧
    decode ⟨0xFF, 0, 0⟩ = .error (.noSuchCommand 0xFF) := by decide +kernel

/-- The packets of vector V-E7 and of `GETBIT D0, 2`. -/
theorem witness_UnusedFieldsIgnored :
    decode ⟨0x10, 0x02, 0⟩ = .ok (.getbit 0 2) ∧
    opcodeOf ⟨0x0000000000FFF010, 0xFFFFFFFF00000002, ones⟩ = opcodeOf ⟨0x10, 0x02, 0⟩ ∧
    rsvOf ⟨0x0000000000FFF010, 0xFFFFFFFF00000002, ones⟩ = 0 ∧
    (∀ f ∈ (Instr.getbit 0 2).uses,
      fieldBits ⟨0x0000000000FFF010, 0xFFFFFFFF00000002, ones⟩ f = fieldBits ⟨0x10, 0x02, 0⟩ f) ∧
    OperandField.v ∉ (Instr.getbit 0 2).uses := by decide +kernel

theorem witness_TableRowsSelectCommands :
    (0x53 : BitVec 8) ∈ opcodes ∧
    (∀ c ∈ opcodes, (⟨0x54, 0, 0⟩ : Packet).cw0 &&& tableMask ≠ c.setWidth 64) ∧
    (∀ c ∈ opcodes, (⟨0x0000000001000010, 0, 0⟩ : Packet).cw0 &&& tableMask ≠ c.setWidth 64) := by decide +kernel

theorem witness_StepRunsDecodedCommand :
    (demo.issue ⟨0x04, 0, 0⟩).port = .packet ⟨0x04, 0, 0⟩ :: [] ∧ decode ⟨0x04, 0, 0⟩ = .ok (.size 0) ∧ demo.port = [] := by
  decide +kernel

theorem witness_ResetEventValues : ({ demo with port := [.reset, .reset] } : State).port = .reset :: [.reset] := rfl

theorem witness_PacketIsItsBits : 0 < 64 ∧ 63 < 64 := by decide

theorem witness_ResetWindowsRefuse :
    0 < 1 ∧ 0 < 127 ∧ (0 : Int) < 1 ∧ (-1 : Int) < 0 ∧ writeTarget (.rset 3 0 0) = some 3 ∧ writeTarget (.wstoreXor 15 2 (-1)) = some 15 := by decide

theorem witness_ResetMeetsInvariant : 1 ≤ 33554431 ∧ 33554431 ≤ Config.maxWords := by decide

theorem witness_StepKeepsInvariant :
    (demo.issue (encode (.wfillXor 3 true))).inv ∧
    ∃ t, step (demo.issue (encode (.wfillXor 3 true))) = .next t ∧ t.resp.code = .ok :=
  ⟨by decide +kernel, exists_next (P := fun t => t.resp.code = .ok) (by decide +kernel)⟩

theorem witness_StepAlwaysAnswers :
    (demo.issue ⟨0xFF, 0, 0⟩).inv ∧ ({ demo with port := [.reset] } : State).inv ∧ demo.inv := by decide +kernel

theorem witness_DescriptorsChangeOnlyByTheirCommands :
    descriptorTarget (.wstoreSet 3 4 0) = none ∧ descriptorTarget (.dview 5 0 4 68) = some 5 ∧ (0 : Fin 16) ≠ 5 ∧
    (∃ t, exec (.wstoreSet 3 4 0) demo = .next t ∧ t.resp.code = .ok) ∧
    (∃ t, exec (.dview 5 0 4 68) demo = .next t ∧ t.resp.code = .ok) :=
  ⟨rfl, rfl, by decide, exists_next (P := fun t => t.resp.code = .ok) (by decide +kernel),
    exists_next (P := fun t => t.resp.code = .ok) (by decide +kernel)⟩

theorem witness_MemoryChangesOnlyByWriteCommands :
    writeTarget (.dset 0 0 256 true) = none ∧ wordTarget (.dset 0 0 256 true) = none ∧
    wordTarget (.mwr 3 ones) = some 3 ∧ (2 : Nat) ≠ (3 : Int).toNat ∧
    (∃ t, exec (.dset 0 0 256 true) demo = .next t ∧ t.resp.code = .ok) ∧
    (∃ t, exec (.mwr 3 ones) demo = .next t ∧ t.resp.code = .ok) :=
  ⟨rfl, rfl, rfl, by decide, exists_next (P := fun t => t.resp.code = .ok) (by decide +kernel),
    exists_next (P := fun t => t.resp.code = .ok) (by decide +kernel)⟩

theorem witness_WritesStayInsideWindow :
    demo.inv ∧ writeTarget (.wstoreXor 0 3 0) = some 0 ∧ writeTarget (.rxor 0 0 140) = some 0 ∧
    ∃ t, exec (.rxor 0 0 140) demo = .next t ∧ t.resp.code = .ok :=
  ⟨demo_inv, rfl, rfl, exists_next (P := fun t => t.resp.code = .ok) (by decide +kernel)⟩

/-- Two engines that differ in word 3, and a command that names the window of word 1. -/
theorem witness_ResultsDependOnlyOnNamedWindows :
    demo.inv ∧ (demo.setWord 3 ones).desc = demo.desc ∧ (demo.setWord 3 ones).nwords = demo.nwords ∧
    (∀ a, Instr.wbitsXor 4 0 64 ones ≠ .mrd a) ∧
    (∀ x ∈ namedWindows (.wbitsXor 4 0 64 ones), ∀ a, (demo.window x).start ≤ a → a < (demo.window x).finish →
      (demo.setWord 3 ones).bit a = demo.bit a) ∧
    (demo.setWord 3 ones).word 3 ≠ demo.word 3 ∧
    ∃ u, exec (.wbitsXor 4 0 64 ones) demo = .next u ∧ u.resp.code = .ok := by
  refine ⟨demo_inv, rfl, rfl, fun a h => (by cases h), fun x hx a h0 h1 => ?_, by decide +kernel,
    exists_next (P := fun t => t.resp.code = .ok) (by decide +kernel)⟩
  obtain rfl : x = 4 := List.mem_singleton.1 hx
  have e : demo.window 4 = ⟨64, 128, true⟩ := by decide +kernel
  have h2 : a < 128 := by rwa [e] at h1
  rw [State.bit_setWord, if_neg (by omega)]

theorem witness_ErrorsArePrecise :
    (∃ t, exec (.getbit 0 140) demo = .next t ∧ t.resp.code ≠ .ok) ∧
    (∃ t, exec (.wfillAnd 1 true) demo = .next t ∧ t.resp.code ≠ .ok) :=
  ⟨exists_next (P := fun t => t.resp.code ≠ .ok) (by decide +kernel),
    exists_next (P := fun t => t.resp.code ≠ .ok) (by decide +kernel)⟩

theorem witness_ChecksAndTheirOrder_decode :
    (demo.issue ⟨0x54, 0, 0⟩).port = .packet ⟨0x54, 0, 0⟩ :: [] ∧ opcodeOf ⟨0x54, 0, 0⟩ ∉ opcodes ∧
    rsvOf ⟨0x0000000001000000, 0, 0⟩ ≠ 0 := by decide +kernel

/-- Vector V-W22 (both checks fail), a failing gate on an empty range, and an empty range at the end of a mutable window. -/
theorem witness_ChecksAndTheirOrder :
    argumentCheck demo (.wbitsSet 1 0 65 0) = some .invalidArgument ∧
    argumentCheck demo (.rset 1 7 7) = none ∧ writeTarget (.rset 1 7 7) = some 1 ∧ (demo.window 1).mutable = false ∧
    demo.inv ∧ argumentCheck demo (.rset 0 140 140) = none ∧
    (∀ d, writeTarget (.rset 0 140 140) = some d → (demo.window d).mutable = true) := by
  refine ⟨by decide +kernel, by decide +kernel, rfl, by decide +kernel, demo_inv, by decide +kernel, fun d h => ?_⟩
  cases h
  decide +kernel

theorem witness_EndOfStreamNeverProduced :
    (1 : Int) + (demo.window 1).size > (demo.window 0).size ∧
    ∃ t, exec (.wstoreSet 0 1 1) demo = .next t ∧ t.resp.code = .invalidArgument :=
  ⟨by decide +kernel, exists_next (P := fun t => t.resp.code = .invalidArgument) (by decide +kernel)⟩

theorem witness_NopWritesOnlyResponse :
    opcodeOf ⟨0x0000000000FFFF00, ones, ones⟩ = 0 ∧ rsvOf ⟨0x0000000000FFFF00, ones, ones⟩ = 0 ∧
    opcodeOf ⟨0x8000000000000000, 0, 0⟩ = 0 ∧ rsvOf ⟨0x8000000000000000, 0, 0⟩ ≠ 0 := by decide +kernel

theorem witness_DsetDefinesWindow :
    ((-1 : Int) < 0) ∧ ((8 : Int) < 9) ∧ ((257 : Int) > ((64 * demo.nwords : Nat) : Int)) ∧
    ((0 : Int) ≤ 0 ∧ (0 : Int) ≤ 256 ∧ (256 : Int) ≤ ((64 * demo.nwords : Nat) : Int)) ∧
    ((0 : Int) ≤ 256 ∧ (256 : Int) ≤ 256 ∧ (256 : Int) ≤ ((64 * demo.nwords : Nat) : Int)) := by decide +kernel

/-- `from = to = size` is inside, `to = size + 1` is not. -/
theorem witness_DviewNarrowsWindow :
    ((-1 : Int) < 0) ∧ ((141 : Int) > (demo.window 0).size) ∧ ((5 : Int) > 4) ∧
    ((0 : Int) ≤ 140 ∧ (140 : Int) ≤ 140 ∧ (140 : Int) ≤ (demo.window 0).size) ∧
    ((0 : Int) ≤ 0 ∧ (0 : Int) ≤ 140 ∧ (140 : Int) ≤ (demo.window 0).size) := by decide +kernel

theorem witness_ImmutableViewSeesButCannotWrite :
    demo.inv ∧ writeTarget (.wrangeOr 6 0 1 true) = some 6 ∧ (6 : Fin 16) ≠ 0 ∧
    ((0 : Int) ≤ 139 ∧ (139 : Int) < (demo.window 0).size) ∧
    ∃ t, exec (.dimm 6 0) demo = .next t ∧ (nextOf (exec (.wbitSet 0 139 true) t)).any (·.resp.code = .ok) :=
  ⟨demo_inv, rfl, by decide, by decide +kernel,
    exists_next (P := fun t => (nextOf (exec (.wbitSet 0 139 true) t)).any (·.resp.code = .ok)) (by decide +kernel)⟩

theorem witness_SizeAnswersFinishMinusStart : demo.inv ∧ (demo.window 3).size = 256 := by decide +kernel

theorem witness_MrdReadsWord :
    ((-1 : Int) < 0) ∧ ((4 : Int) ≥ (demo.nwords : Int)) ∧ ((0 : Int) ≤ 0 ∧ (0 : Int) < (demo.nwords : Int)) ∧
    ((0 : Int) ≤ 3 ∧ (3 : Int) < (demo.nwords : Int)) := by decide +kernel

theorem witness_MwrWritesWord :
    ((-1 : Int) < 0) ∧ ((4 : Int) ≥ (demo.nwords : Int)) ∧ ((0 : Int) ≤ 0 ∧ (0 : Int) < (demo.nwords : Int)) ∧
    ((0 : Int) ≤ 3 ∧ (3 : Int) < (demo.nwords : Int)) ∧ (0 : Nat) ≠ (3 : Int).toNat := by decide +kernel

/-- The immutable window 1 is read as window 0 is. -/
theorem witness_GetbitReadsWindowBit :
    ((-1 : Int) < 0) ∧ ((140 : Int) ≥ (demo.window 1).size) ∧ ((0 : Int) ≥ (demo.window 2).size) ∧
    (demo.inv ∧ (0 : Int) ≤ 0 ∧ (0 : Int) < (demo.window 1).size) ∧
    (demo.inv ∧ (0 : Int) ≤ 139 ∧ (139 : Int) < (demo.window 1).size) := by decide +kernel

theorem witness_GetbitsReadsSpan :
    (65 > 64) ∧ ((-1 : Int) < 0) ∧ ((77 : Int) + (64 : Nat) > (demo.window 0).size) ∧
    ((141 : Int) + (0 : Nat) > (demo.window 0).size) ∧
    (demo.inv ∧ 64 ≤ 64 ∧ (0 : Int) ≤ 76 ∧ (76 : Int) + (64 : Nat) ≤ (demo.window 0).size) ∧
    (demo.inv ∧ 0 ≤ 64 ∧ (0 : Int) ≤ 140 ∧ (140 : Int) + (0 : Nat) ≤ (demo.window 0).size) := by decide +kernel

/-- The two-word case at its smallest and its largest offset. -/
theorem witness_ReadSpanAlgorithmAgrees :
    64 ≤ 64 ∧ (129 % 64 + 64 > 64 ∧ 129 + 64 ≤ 64 * demo.nwords) ∧ (63 % 64 + 2 > 64 ∧ 63 + 2 ≤ 64 * demo.nwords) := by
  decide +kernel

theorem witness_RangeCommandsActOnRange :
    ((-1 : Int) < 0) ∧ ((141 : Int) > (demo.window 0).size) ∧ ((5 : Int) > 4) ∧
    ((0 : Int) ≤ 7 ∧ (7 : Int) ≤ 7 ∧ (7 : Int) ≤ (demo.window 1).size ∧ (demo.window 1).mutable = false) ∧
    (demo.inv ∧ (0 : Int) ≤ 0 ∧ (0 : Int) ≤ 140 ∧ (140 : Int) ≤ (demo.window 0).size ∧ (demo.window 0).mutable = true) ∧
    (demo.inv ∧ (0 : Int) ≤ 256 ∧ (256 : Int) ≤ 256 ∧ (256 : Int) ≤ (demo.window 3).size ∧
      (demo.window 3).mutable = true) := by decide +kernel

theorem witness_ApplyRangeAlgorithmAgrees : 0 < 100 / 64 ∧ (200 - 1) / 64 < 4 ∧ 100 < 200 := by decide

theorem witness_CombineWordIsPerBit : 63 < 64 := by decide

theorem witness_WbitCombinesOneBit :
    ((-1 : Int) < 0) ∧ ((140 : Int) ≥ (demo.window 0).size) ∧
    ((0 : Int) ≤ 0 ∧ (0 : Int) < (demo.window 1).size ∧ (demo.window 1).mutable = false) ∧
    (demo.inv ∧ (0 : Int) ≤ 0 ∧ (0 : Int) < (demo.window 0).size ∧ (demo.window 0).mutable = true) ∧
    (demo.inv ∧ (0 : Int) ≤ 139 ∧ (139 : Int) < (demo.window 0).size ∧ (demo.window 0).mutable = true) := by
  decide +kernel

theorem witness_WbitsCombinesSpan :
    (65 > 64) ∧ ((-1 : Int) < 0) ∧ ((77 : Int) + (64 : Nat) > (demo.window 0).size) ∧
    (0 ≤ 64 ∧ (0 : Int) ≤ 0 ∧ (0 : Int) + (0 : Nat) ≤ (demo.window 1).size ∧ (demo.window 1).mutable = false) ∧
    (demo.inv ∧ 64 ≤ 64 ∧ (0 : Int) ≤ 76 ∧ (76 : Int) + (64 : Nat) ≤ (demo.window 0).size ∧
      (demo.window 0).mutable = true) ∧
    (demo.inv ∧ 0 ≤ 64 ∧ (0 : Int) ≤ 140 ∧ (140 : Int) + (0 : Nat) ≤ (demo.window 0).size ∧
      (demo.window 0).mutable = true) := by decide +kernel

theorem witness_WriteSpanAlgorithmAgrees : 64 ≤ 64 ∧ 129 % 64 + 64 > 64 ∧ 63 % 64 + 2 > 64 := by decide

theorem witness_SpanWriteLaws :
    demo.inv ∧ (∃ t, exec (.wbitsSet 0 76 64 0x123456789ABCDEF) demo = .next t ∧ t.resp.code = .ok) ∧
    (∃ t, exec (.wbitSet 0 139 true) demo = .next t ∧ t.resp.code = .ok) ∧
    (∃ t, exec (.wbitsAnd 0 76 64 ones) demo = .next t ∧ t.resp.code = .ok) ∧
    (∃ t, exec (.wbitsOr 0 76 64 0) demo = .next t ∧ t.resp.code = .ok) ∧
    (∃ t, exec (.wbitsXor 0 76 64 0) demo = .next t ∧ t.resp.code = .ok) :=
  ⟨demo_inv, exists_next (P := fun t => t.resp.code = .ok) (by decide +kernel),
    exists_next (P := fun t => t.resp.code = .ok) (by decide +kernel),
    exists_next (P := fun t => t.resp.code = .ok) (by decide +kernel),
    exists_next (P := fun t => t.resp.code = .ok) (by decide +kernel),
    exists_next (P := fun t => t.resp.code = .ok) (by decide +kernel)⟩

theorem witness_ViewTransparency :
    (6 : Fin 16) ≠ 0 ∧ (∃ t, exec (.dview 6 0 4 68) demo = .next t ∧ t.resp.code = .ok) ∧
    ((0 : Int) ≤ 63 ∧ (63 : Int) < 68 - 4 ∧ (63 : Int) + (1 : Nat) ≤ 68 - 4) ∧
    ((0 : Int) ≤ 0 ∧ (0 : Int) < 68 - 4 ∧ (0 : Int) + (64 : Nat) ≤ 68 - 4) :=
  ⟨by decide, exists_next (P := fun t => t.resp.code = .ok) (by decide +kernel), by decide, by decide⟩

theorem witness_RationalisationIsCombine :
    rationalise .set false = some .clear ∧ rationalise .xor true = some .xor ∧ rationalise .and true = none ∧
    rationalise .or false = none ∧ rationalise .xor false = none := by decide

/-- Window 1 is immutable; the empty window 2 is a legal target. -/
theorem witness_WfillCombinesWindow :
    (demo.window 1).mutable = false ∧ (demo.inv ∧ (demo.window 0).mutable = true) ∧
    (demo.window 2).mutable = true := by decide +kernel

theorem witness_WrangeCombinesRange :
    ((-1 : Int) < 0) ∧ ((141 : Int) > (demo.window 0).size) ∧ ((12 : Int) > 2) ∧
    ((0 : Int) ≤ 0 ∧ (0 : Int) ≤ 140 ∧ (140 : Int) ≤ (demo.window 1).size ∧ (demo.window 1).mutable = false) ∧
    (demo.inv ∧ (0 : Int) ≤ 2 ∧ (2 : Int) ≤ 12 ∧ (12 : Int) ≤ (demo.window 0).size ∧ (demo.window 0).mutable = true) ∧
    (demo.inv ∧ (0 : Int) ≤ 140 ∧ (140 : Int) ≤ 140 ∧ (140 : Int) ≤ (demo.window 0).size ∧
      (demo.window 0).mutable = true) := by decide +kernel

theorem witness_WrangeEquivalences : demo.inv ∧ (demo.window 0).size = 140 := by decide +kernel

/-- The source is the whole of `WM`, longer than a word, or empty; source and destination overlap, or are one window. -/
theorem witness_WstoreCombinesWindow :
    ((-1 : Int) < 0) ∧ ((1 : Int) + (demo.window 1).size > (demo.window 0).size) ∧
    ((0 : Int) ≤ 0 ∧ (0 : Int) + (demo.window 5).size ≤ (demo.window 1).size ∧ (demo.window 1).mutable = false) ∧
    (demo.inv ∧ (0 : Int) ≤ 116 ∧ (116 : Int) + (demo.window 1).size ≤ (demo.window 3).size ∧
      (demo.window 3).mutable = true) ∧
    (demo.inv ∧ (0 : Int) ≤ 0 ∧ (0 : Int) + (demo.window 3).size ≤ (demo.window 3).size ∧
      (demo.window 3).mutable = true) ∧
    (demo.inv ∧ (0 : Int) ≤ 140 ∧ (140 : Int) + (demo.window 2).size ≤ (demo.window 0).size ∧
      (demo.window 0).mutable = true) ∧
    (demo.window 1).start + 139 < (demo.window 1).finish := by decide +kernel

theorem witness_WstoreLaws :
    demo.inv ∧ (demo.window 4).finish - (demo.window 4).start ≤ 64 ∧
    (∃ g, exec (.getbits 4 0 ((demo.window 4).finish - (demo.window 4).start)) demo = .next g ∧ g.resp.code = .ok) ∧
    (∃ t, exec (.wstoreSet 3 1 116) demo = .next t ∧ t.resp.code = .ok) ∧
    (∃ g, exec (.getbits 1 76 64) demo = .next g ∧ g.resp.code = .ok) :=
  ⟨demo_inv, by decide +kernel, exists_next (P := fun t => t.resp.code = .ok) (by decide +kernel),
    exists_next (P := fun t => t.resp.code = .ok) (by decide +kernel),
    exists_next (P := fun t => t.resp.code = .ok) (by decide +kernel)⟩

/-- Log entry 9: a `NEW` whose difference does not fit; its `RCLR` is not well-formed, and its `DSET` fails. -/
theorem test_new_difference_does_not_fit :
    expand (.new 0 2147483647 (-2147483648)) =
      [.dset 0 2147483647 (-2147483648) true, .rclr 0 0 (-4294967295)] ∧
    (Instr.rclr 0 0 (-4294967295)).wellFormed = false ∧
    nextOf (exec (.dset 0 2147483647 (-2147483648) true) demo) = some (demo.raise .invalidArgument) := by decide +kernel

theorem witness_NewZeroFillsItsWindow :
    demo.inv ∧ ((0 : Int) ≤ 0 ∧ (0 : Int) ≤ 256 ∧ (256 : Int) ≤ ((64 * demo.nwords : Nat) : Int)) ∧
    ((0 : Int) ≤ 256 ∧ (256 : Int) ≤ 256 ∧ (256 : Int) ≤ ((64 * demo.nwords : Nat) : Int)) := by decide +kernel

end Sys2Proof.Tests
end

section
/-! The invariant right after reset (R19, R4, R16). -/

namespace Sys2Proof.Machine

/-- The memory with no word listed, as a reset leaves it, is in canonical form. -/
theorem Memory.wf_nil (n : Nat) : Memory.wf n [] := ⟨.nil, by simp⟩

/-- The descriptor a reset leaves is legal in an engine of any size, a size of 0 included. -/
theorem Descriptor.legal_empty (n : Nat) : Descriptor.empty.legal n := ⟨Nat.le_refl 0, Nat.zero_le _⟩

/-- An OK response is legal with any value. -/
theorem Resp.legal_ok (v : Word) : (Resp.mk .ok v).legal := ⟨nofun, fun h => absurd rfl h⟩

/-- Right after reset only the bounds of R4 on the size are left to meet. -/
theorem State.inv_resetOf {n : Nat} (h1 : 1 ≤ n) (h2 : n ≤ Config.maxWords) : (State.resetOf n).inv := by
  refine ⟨⟨h1, h2⟩, Memory.wf_nil n, fun d => ?_, Resp.legal_ok 0⟩
  rw [State.resetOf_window]
  exact Descriptor.legal_empty n

/-- Settles O11: the reset values meet the invariant at every size of R4, and `State.reset` has such a size. -/
theorem resetMeetsInvariant : Obligations.ResetMeetsInvariant := by
  have hsize : 1 ≤ Config.resetWords ∧ Config.resetWords ≤ Config.maxWords := by decide
  exact ⟨fun _ h1 h2 => State.inv_resetOf h1 h2, State.inv_resetOf hsize.1 hsize.2⟩

end Sys2Proof.Machine
end

section
/-! The checks every command starts with (R142, R145), and the empty, immutable windows a reset leaves (R19). -/

namespace Sys2Proof.Machine

/-- The argument check and the gate as two stages: the gate is reached only when the arguments pass. -/
theorem State.checked_firstFailure (s : State) (e g : Option Code) (k : Host.Outcome State Fault Refusal) :
    s.checked (firstFailure e g) k = s.checked e (s.checked g k) := by
  cases e <;> rfl

/-- R145: every command runs its argument check, then the gate of its target if it is write-class, then the rest. -/
theorem exec_checks (i : Instr) (s : State) :
    ∃ k, exec i s = s.checked (argumentCheck s i) (s.checked ((writeTarget i).bind fun d => gate (s.window d)) k) := by
  cases i with
  | rset | rclr | rxor | wbitSet | wbitAnd | wbitOr | wbitXor | wbitsSet | wbitsAnd | wbitsOr | wbitsXor
  | wrangeSet | wrangeAnd | wrangeOr | wrangeXor | wstoreSet | wstoreAnd | wstoreOr | wstoreXor =>
    exact ⟨_, s.checked_firstFailure ..⟩
  | _ => exact ⟨_, rfl⟩

/-- R144: the argument checks raise InvalidArgument only. -/
theorem argumentCheck_some {s : State} {i : Instr} {c : Code} (h : argumentCheck s i = some c) :
    c = .invalidArgument := by
  cases i with
  | nop | dimm | size | wfillSet | wfillAnd | wfillOr | wfillXor => cases h
  | dset => exact windowCheck_some _ _ _ _ h
  | mrd | mwr => exact wordCheck_some _ _ _ h
  | getbit | wbitSet | wbitAnd | wbitOr | wbitXor => exact indexCheck_some _ _ _ h
  | getbits | wbitsSet | wbitsAnd | wbitsOr | wbitsXor => exact spanCheck_some _ _ _ _ h
  | dview | rset | rclr | rxor | wrangeSet | wrangeAnd | wrangeOr | wrangeXor => exact rangeCheck_some _ _ _ _ h
  | wstoreSet | wstoreAnd | wstoreOr | wstoreXor => exact storeCheck_some _ _ _ _ h

/-- R144: a command whose arguments fail their check raises InvalidArgument. -/
theorem exec_of_argumentCheck_ne_none {s : State} {i : Instr} (h : argumentCheck s i ≠ none) :
    exec i s = .next (s.raise .invalidArgument) := by
  obtain ⟨c, hc⟩ := Option.ne_none_iff_exists'.1 h
  obtain ⟨k, hk⟩ := exec_checks i s
  rw [hk, hc, State.checked_some, argumentCheck_some hc]

/-- R142: a write-class command on an immutable window raises InvalidState once its arguments pass. -/
theorem exec_of_immutable_target {s : State} {i : Instr} {d : Fin 16} (hw : writeTarget i = some d)
    (hm : (s.window d).mutable = false) (ha : argumentCheck s i = none) :
    exec i s = .next (s.raise .invalidState) := by
  obtain ⟨k, hk⟩ := exec_checks i s
  rw [hk, ha, hw, State.checked_none, Option.bind_some, gate_of_immutable _ hm, State.checked_some]

/-- A write-class command on an immutable window fails, by its arguments or by the gate. -/
theorem exec_of_immutable_target_fails {s : State} {i : Instr} {d : Fin 16} (hw : writeTarget i = some d)
    (hm : (s.window d).mutable = false) :
    exec i s = .next (s.raise .invalidArgument) ∨ exec i s = .next (s.raise .invalidState) := by
  by_cases ha : argumentCheck s i = none
  · exact .inr (exec_of_immutable_target hw hm ha)
  · exact .inl (exec_of_argumentCheck_ne_none ha)

@[simp] theorem Descriptor.size_empty : Descriptor.empty.size = 0 := rfl

/-- R19: no word is written at the first reset, so every word is the free value of that reset. -/
@[simp] theorem State.resetOf_word (n w : Nat) : (State.resetOf n).word w = Config.powerUpWord 0 w := rfl

/-- R19: no word is written since a reset event, so every word is the free value of the new reset. -/
@[simp] theorem State.afterReset_word (s : State) (w : Nat) :
    s.afterReset.word w = Config.powerUpWord (s.resets + 1) w := rfl

/-- An empty window has no bit. -/
theorem indexCheck_zero_ne_none (a : Int) : indexCheck 0 a ≠ none := by
  rw [Ne, indexCheck_eq_none]; omega

/-- A span of at least one bit does not fit an empty window. -/
theorem spanCheck_zero_ne_none (a : Int) {len : Nat} (h : 0 < len) : spanCheck 0 a len ≠ none := by
  rw [Ne, spanCheck_eq_none]; omega

/-- A range of at least one bit does not fit an empty window. -/
theorem rangeCheck_zero_ne_none {a e : Int} (h : a < e) : rangeCheck 0 a e ≠ none := by
  rw [Ne, rangeCheck_eq_none]; omega

/-- Settles O10: after reset every window is empty, so no non-empty operand passes its check, and immutable, so the gate
stops what is left of the write-class commands. -/
theorem resetWindowsRefuse : Obligations.ResetWindowsRefuse := by
  intro n s
  have hwin : ∀ d, s.window d = Descriptor.empty := State.resetOf_window n
  have hsize : ∀ d, (s.window d).size = 0 := fun d => by rw [hwin, Descriptor.size_empty]
  have hindex : ∀ d a, indexCheck (s.window d).size a ≠ none := fun d a => hsize d ▸ indexCheck_zero_ne_none a
  have hspan : ∀ d a len, 0 < len → spanCheck (s.window d).size a len ≠ none := fun d a _ h =>
    hsize d ▸ spanCheck_zero_ne_none a h
  have hrange : ∀ d a e, a < e → rangeCheck (s.window d).size a e ≠ none := fun d _ _ h =>
    hsize d ▸ rangeCheck_zero_ne_none h
  refine ⟨hwin, rfl, State.resetOf_word n, ?getbit, ?wbit, ?getbits, ?wbits, ?range, ?wrange, ?write⟩
  case getbit => exact fun d a => exec_of_argumentCheck_ne_none (hindex d a)
  case wbit => exact fun k d a _ => exec_of_argumentCheck_ne_none (by cases k <;> exact hindex d a)
  case getbits => exact fun d a len h => exec_of_argumentCheck_ne_none (hspan d a len h)
  case wbits => exact fun k d a len _ h => exec_of_argumentCheck_ne_none (by cases k <;> exact hspan d a len h)
  case range => exact fun op d a e h => exec_of_argumentCheck_ne_none (by cases op <;> exact hrange d a e h)
  case wrange => exact fun k d a e _ h => exec_of_argumentCheck_ne_none (by cases k <;> exact hrange d a e h)
  case write => exact fun _ d h => exec_of_immutable_target_fails h (by rw [hwin d]; rfl)

/-- R168: a reset event at the port is taken off and carried out. -/
theorem step_of_reset {s : State} {rest : List HostEvent} (h : s.port = .reset :: rest) :
    step s = .next { s with port := rest }.afterReset := by
  simp only [step, h]

/-- Settles O9: the step is `State.afterReset`, whose windows, response and words are those of R19. -/
theorem resetEventValues : Obligations.ResetEventValues := by
  intro s rest h
  exact ⟨_, step_of_reset h, State.afterReset_window _, State.afterReset_resp _, State.afterReset_word _,
    State.afterReset_nwords _, State.afterReset_port _⟩

end Sys2Proof.Machine
end

section
/-! What `RESP` held before a command has no effect (R14, R15): a command's last act, an error included, overwrites it. -/

namespace Sys2Proof.Machine

/-- A check that fails overwrites `RESP`; one that passes hands on. -/
theorem State.checked_resp {s : State} {r : Resp} {e : Option Code} {k k' : Host.Outcome State Fault Refusal}
    (h : k = k') : { s with resp := r }.checked e k = s.checked e k' := by
  cases e with
  | none => exact h
  | some c => rfl

/-- Whether `WM` has the words of a range does not depend on `RESP`. -/
theorem State.within_resp {s : State} {r : Resp} {lo hi : Nat} {k k' : Host.Outcome State Fault Refusal}
    (h : k = k') : { s with resp := r }.within lo hi k = s.within lo hi k' := by
  subst h
  rfl

/-- A constant combine ends in a response, whether or not a bit changes. -/
theorem constRange_resp {k : Kind} {b : Bool} {lo hi : Nat} {s : State} {r : Resp} :
    constRange k b lo hi { s with resp := r } = constRange k b lo hi s := by
  unfold constRange
  cases rationalise k b with
  | none => rfl
  | some op => exact State.within_resp rfl

/-- Settles O19: checks and accesses hand on whatever `RESP` held, and the response at their end overwrites it. -/
theorem noCommandReadsResponse : Obligations.NoCommandReadsResponse := by
  intro i s r
  cases i with
  | nop | dimm | size => rfl
  | dset | dview | mrd | mwr => exact State.checked_resp rfl
  | getbit | getbits | rset | rclr | rxor | wbitSet | wbitAnd | wbitOr | wbitXor
  | wbitsSet | wbitsAnd | wbitsOr | wbitsXor => exact State.checked_resp (State.within_resp rfl)
  | wfillSet | wfillAnd | wfillOr | wfillXor | wrangeSet | wrangeAnd | wrangeOr | wrangeXor =>
    exact State.checked_resp constRange_resp
  | wstoreSet | wstoreAnd | wstoreOr | wstoreXor =>
    exact State.checked_resp (State.within_resp (State.within_resp rfl))

end Sys2Proof.Machine
end

section
/-! What a write-class command can change: bits of its target window (R39 (a)). -/

namespace Sys2Proof.Machine

/-- Settles O16: an error changes no bit, and a write stays inside the target window. -/
theorem writesStayInsideWindow : Obligations.WritesStayInsideWindow := by
  intro i s t d hinv hd h x hx
  rcases exec_outcomes i s t h with ⟨-, rfl⟩ | ⟨-, -, rfl⟩ | ⟨-, heffect⟩
  · exact s.raise_bit ..
  · exact s.raise_bit ..
  · cases heffect with
    | respond _ _ hw | describe _ _ _ hw | store _ _ _ hw => cases hw.symm.trans hd
    | write d' lo hi g _ hw _ _ _ hin ht =>
      obtain rfl : d' = d := Option.some.inj (hw.symm.trans hd)
      have hrange := hin hinv
      rw [ht, State.done_bit, State.bit_putBits, if_neg (by omega)]

end Sys2Proof.Machine
end

section
/-! What a command's result depends on: the descriptors, the size, and the bits of the windows it names (R39 (a)). -/

namespace Sys2Proof.Machine

/-- The bit lies in one of the windows the command names. -/
def InNamedWindow (i : Instr) (s : State) (a : Nat) : Prop :=
  ∃ x ∈ namedWindows i, (s.window x).start ≤ a ∧ a < (s.window x).finish

/-- Two states with the same descriptors and size, and the same bits at the positions `P`. -/
structure AgreeOn (P : Nat → Prop) (s s' : State) : Prop where
  desc : s'.desc = s.desc
  nwords : s'.nwords = s.nwords
  bit : ∀ a, P a → s'.bit a = s.bit a

/-- If the first outcome is a next state, so is the second, and the two have the same response and descriptors and the
same bits at the positions `P`. -/
def AnswersAlike (P : Nat → Prop) (o o' : Host.Outcome State Fault Refusal) : Prop :=
  ∀ u, o = .next u → Completes o' fun v => v.resp = u.resp ∧ v.desc = u.desc ∧ ∀ a, P a → v.bit a = u.bit a

section
variable {P : Nat → Prop} {s s' : State}

theorem AgreeOn.window (h : AgreeOn P s s') (x : Fin 16) : s'.window x = s.window x := by
  rw [State.window, State.window, h.desc]

theorem AgreeOn.nbits (h : AgreeOn P s s') : s'.nbits = s.nbits := by
  rw [State.nbits, State.nbits, h.nwords]

/-! ## Steps that keep the agreement -/

theorem AgreeOn.setWindow (h : AgreeOn P s s') (d : Fin 16) (w : Descriptor) :
    AgreeOn P (s.setWindow d w) (s'.setWindow d w) :=
  ⟨by rw [State.setWindow_desc, State.setWindow_desc, h.desc], h.nwords, h.bit⟩

theorem AgreeOn.setWord (h : AgreeOn P s s') (w : Nat) (v : Word) : AgreeOn P (s.setWord w v) (s'.setWord w v) := by
  refine ⟨h.desc, h.nwords, fun a ha => ?_⟩
  rw [State.bit_setWord, State.bit_setWord, h.bit a ha]

/-- A bit write keeps the agreement if both states write the same bits at the positions `P`. -/
theorem AgreeOn.putBits (h : AgreeOn P s s') {lo hi : Nat} {g g' : Nat → Bool}
    (hg : ∀ x, P x → lo ≤ x → x < hi → g' x = g x) : AgreeOn P (s.putBits lo hi g) (s'.putBits lo hi g') := by
  refine ⟨h.desc, h.nwords, fun x hx => ?_⟩
  rw [State.bit_putBits, State.bit_putBits]
  split
  · next hr => exact hg x hx hr.1 hr.2
  · exact h.bit x hx

theorem AgreeOn.applyRange (h : AgreeOn P s s') (op : RangeOp) (lo hi : Nat) :
    AgreeOn P (s.applyRange op lo hi) (s'.applyRange op lo hi) :=
  h.putBits fun x hx _ _ => by rw [h.bit x hx]

theorem AgreeOn.writeBit (h : AgreeOn P s s') (k : Kind) (a : Nat) (b : Bool) :
    AgreeOn P (s.writeBit k a b) (s'.writeBit k a b) :=
  h.putBits fun x hx _ _ => by rw [h.bit x hx]

theorem AgreeOn.writeSpan (h : AgreeOn P s s') (k : Kind) (a len : Nat) (v : Word) :
    AgreeOn P (s.writeSpan k a len v) (s'.writeSpan k a len v) :=
  h.putBits fun x hx _ _ => by rw [h.bit x hx]

/-- A store reads its source too, so the two states must agree there. -/
theorem AgreeOn.transfer (h : AgreeOn P s s') (k : Kind) {src dst n : Nat}
    (hsrc : ∀ x, src ≤ x → x < src + n → P x) :
    AgreeOn P (s.transfer k src dst n) (s'.transfer k src dst n) :=
  h.putBits fun x hx _ _ => by rw [h.bit x hx, h.bit _ (hsrc (src + (x - dst)) (by omega) (by omega))]

theorem AgreeOn.readSpan (h : AgreeOn P s s') {a len : Nat} (hP : ∀ x, a ≤ x → x < a + len → P x) :
    s'.readSpan a len = s.readSpan a len := by
  refine word_ext _ _ fun j _ => ?_
  rw [State.getLsbD_readSpan, State.getLsbD_readSpan]
  by_cases hj : j < len
  · rw [h.bit _ (hP (a + j) (by omega) (by omega))]
  · simp [hj]

/-! ## What a command is made of -/

theorem AgreeOn.done (h : AgreeOn P s s') (v : Word) : AnswersAlike P (.next (s.done v)) (.next (s'.done v)) := by
  intro u hu
  obtain rfl := eq_of_next hu
  exact ⟨_, rfl, rfl, h.desc, h.bit⟩

/-- Both commands report the failed check, or both go on. -/
theorem AgreeOn.checked (h : AgreeOn P s s') {e : Option Code} {k k' : Host.Outcome State Fault Refusal}
    (hk : e = none → AnswersAlike P k k') : AnswersAlike P (s.checked e k) (s'.checked e k') := by
  cases e with
  | none => exact hk rfl
  | some c =>
    intro u hu
    obtain rfl := eq_of_next hu
    exact ⟨_, rfl, rfl, h.desc, h.bit⟩

/-- `WM` has the words of the range in both states or in neither. -/
theorem AgreeOn.within (h : AgreeOn P s s') {lo hi : Nat} {k k' : Host.Outcome State Fault Refusal}
    (hk : AnswersAlike P k k') : AnswersAlike P (s.within lo hi k) (s'.within lo hi k') := by
  intro u hu
  obtain ⟨hb, hu⟩ := State.within_next _ _ _ _ _ hu
  rw [State.within_of_le _ _ _ _ (h.nbits ▸ hb)]
  exact hk u hu

/-! ## The families of commands -/

theorem AgreeOn.rangeCommand (h : AgreeOn P s s') {op : RangeOp} {d : Fin 16} {a e : Int} :
    AnswersAlike P (rangeCommand op d a e s) (rangeCommand op d a e s') := by
  simp only [Machine.rangeCommand, h.window]
  exact h.checked fun _ => h.within ((h.applyRange ..).done 0)

theorem AgreeOn.bitCommand (h : AgreeOn P s s') {k : Kind} {d : Fin 16} {a : Int} {b : Bool} :
    AnswersAlike P (bitCommand k d a b s) (bitCommand k d a b s') := by
  simp only [Machine.bitCommand, h.window]
  exact h.checked fun _ => h.within ((h.writeBit ..).done 0)

theorem AgreeOn.spanCommand (h : AgreeOn P s s') {k : Kind} {d : Fin 16} {a : Int} {len : Nat} {v : Word} :
    AnswersAlike P (spanCommand k d a len v s) (spanCommand k d a len v s') := by
  simp only [Machine.spanCommand, h.window]
  exact h.checked fun _ => h.within ((h.writeSpan ..).done 0)

theorem AgreeOn.constRange (h : AgreeOn P s s') {k : Kind} {b : Bool} {lo hi : Nat} :
    AnswersAlike P (constRange k b lo hi s) (constRange k b lo hi s') := by
  unfold Machine.constRange
  cases rationalise k b with
  | none => exact h.done 0
  | some op => exact h.within ((h.applyRange ..).done 0)

theorem AgreeOn.fillCommand (h : AgreeOn P s s') {k : Kind} {d : Fin 16} {b : Bool} :
    AnswersAlike P (fillCommand k d b s) (fillCommand k d b s') := by
  simp only [Machine.fillCommand, h.window]
  exact h.checked fun _ => h.constRange

theorem AgreeOn.constRangeCommand (h : AgreeOn P s s') {k : Kind} {d : Fin 16} {a e : Int} {b : Bool} :
    AnswersAlike P (constRangeCommand k d a e b s) (constRangeCommand k d a e b s') := by
  simp only [Machine.constRangeCommand, h.window]
  exact h.checked fun _ => h.constRange

/-- The source bits of a store are those of the source window. -/
theorem AgreeOn.storeCommand (h : AgreeOn P s s') {k : Kind} {d r : Fin 16} {a : Int}
    (hr : ∀ x, (s.window r).start ≤ x → x < (s.window r).finish → P x) :
    AnswersAlike P (storeCommand k d r a s) (storeCommand k d r a s') := by
  simp only [Machine.storeCommand, h.window]
  refine h.checked fun _ => h.within (h.within ((h.transfer k fun x h0 h1 => hr x h0 ?_).done 0))
  simp only [Descriptor.count] at h1
  omega

/-- A span that passes its check lies in the window. -/
theorem mem_window_of_spanCheck {w : Descriptor} {a : Int} {len x : Nat} (hc : spanCheck w.size a len = none)
    (h0 : w.abs a ≤ x) (h1 : x < w.abs a + len) : w.start ≤ x ∧ x < w.finish := by
  rw [spanCheck_eq_none, Descriptor.size] at hc
  unfold Descriptor.abs at h0 h1
  omega

/-- An index that passes its check lies in the window. -/
theorem mem_window_of_indexCheck {w : Descriptor} {a : Int} (hc : indexCheck w.size a = none) :
    w.start ≤ w.abs a ∧ w.abs a < w.finish := by
  rw [indexCheck_eq_none, Descriptor.size] at hc
  unfold Descriptor.abs
  omega

theorem AgreeOn.execGetbit (h : AgreeOn P s s') {d : Fin 16} {a : Int}
    (hd : ∀ x, (s.window d).start ≤ x → x < (s.window d).finish → P x) :
    AnswersAlike P (execGetbit d a s) (execGetbit d a s') := by
  simp only [Machine.execGetbit, h.window]
  refine h.checked fun hc => h.within ?_
  obtain ⟨h0, h1⟩ := mem_window_of_indexCheck hc
  rw [h.bit _ (hd _ h0 h1)]
  exact h.done _

theorem AgreeOn.execGetbits (h : AgreeOn P s s') {d : Fin 16} {a : Int} {len : Nat}
    (hd : ∀ x, (s.window d).start ≤ x → x < (s.window d).finish → P x) :
    AnswersAlike P (execGetbits d a len s) (execGetbits d a len s') := by
  simp only [Machine.execGetbits, h.window]
  refine h.checked fun hc => h.within ?_
  rw [h.readSpan fun x h0 h1 => (mem_window_of_spanCheck hc h0 h1).elim (hd x)]
  exact h.done _

end

/-- R39 (a): only `MRD` reads `WM` elsewhere than in the windows it names. -/
theorem AgreeOn.exec {i : Instr} {s s' : State} (h : AgreeOn (InNamedWindow i s) s s') (hi : ∀ a, i ≠ .mrd a) :
    AnswersAlike (InNamedWindow i s) (exec i s) (exec i s') := by
  have hnamed : ∀ d ∈ namedWindows i, ∀ x,
      (s.window d).start ≤ x → x < (s.window d).finish → InNamedWindow i s x :=
    fun d hd x h0 h1 => ⟨d, hd, h0, h1⟩
  cases i with
  | nop => exact h.done 0
  | dset =>
    simp only [Machine.exec, execDset, h.nbits]
    exact h.checked fun _ => (h.setWindow ..).done 0
  | dview =>
    simp only [Machine.exec, execDview, h.window]
    exact h.checked fun _ => (h.setWindow ..).done 0
  | dimm =>
    simp only [Machine.exec, execDimm, h.window]
    exact (h.setWindow ..).done 0
  | size =>
    simp only [Machine.exec, execSize, h.window]
    exact h.done _
  | mrd a => exact absurd rfl (hi a)
  | mwr =>
    simp only [Machine.exec, execMwr, h.nwords]
    exact h.checked fun _ => (h.setWord ..).done 0
  | getbit d => exact h.execGetbit (hnamed d List.mem_cons_self)
  | getbits d => exact h.execGetbits (hnamed d List.mem_cons_self)
  | rset | rclr | rxor => exact h.rangeCommand
  | wbitSet | wbitAnd | wbitOr | wbitXor => exact h.bitCommand
  | wbitsSet | wbitsAnd | wbitsOr | wbitsXor => exact h.spanCommand
  | wfillSet | wfillAnd | wfillOr | wfillXor => exact h.fillCommand
  | wrangeSet | wrangeAnd | wrangeOr | wrangeXor => exact h.constRangeCommand
  | wstoreSet _ r | wstoreAnd _ r | wstoreOr _ r | wstoreXor _ r =>
    exact h.storeCommand (hnamed r (List.mem_cons_of_mem _ List.mem_cons_self))

/-- Settles O17: every command but `MRD` answers alike in states that agree on the windows it names. The invariant is
not used: a command's checks alone keep its reads inside those windows. -/
theorem resultsDependOnlyOnNamedWindows : Obligations.ResultsDependOnlyOnNamedWindows := by
  intro i s t u _ hdesc hnwords hi hbit hu
  have hagree : AgreeOn (InNamedWindow i s) s t := ⟨hdesc, hnwords, fun a ⟨x, hx, h0, h1⟩ => hbit x hx a h0 h1⟩
  obtain ⟨v, hv, hresp, hvdesc, hvbit⟩ := hagree.exec hi u hu
  exact ⟨v, hv, hresp, hvdesc, fun x hx a h0 h1 => hvbit a ⟨x, hx, h0, h1⟩⟩

end Sys2Proof.Machine
end

section
/-! The decoder and the encoder (R50 to R59): which command a packet is, from its reserved bits, its opcode and the operand
fields the command uses. -/

namespace Sys2Proof

/-! ## Which packets are a command -/

/-- The command with the same opcode as `i`, its operands read from the packet (R53, columns "opcode" and "uses"). -/
def Instr.withOperandsOf (p : Packet) : Instr → Instr
  | .nop => .nop
  | .dset _ _ _ _ => .dset (dOf p) (aOf p) (eOf p) (bOf p)
  | .dview _ _ _ _ => .dview (dOf p) (sOf p) (aOf p) (eOf p)
  | .dimm _ _ => .dimm (dOf p) (sOf p)
  | .size _ => .size (dOf p)
  | .mrd _ => .mrd (aOf p)
  | .mwr _ _ => .mwr (aOf p) (vOf p)
  | .getbit _ _ => .getbit (dOf p) (aOf p)
  | .getbits _ _ _ => .getbits (dOf p) (aOf p) (lenOf p)
  | .rset _ _ _ => .rset (dOf p) (aOf p) (eOf p)
  | .rclr _ _ _ => .rclr (dOf p) (aOf p) (eOf p)
  | .rxor _ _ _ => .rxor (dOf p) (aOf p) (eOf p)
  | .wbitSet _ _ _ => .wbitSet (dOf p) (aOf p) (bOf p)
  | .wbitAnd _ _ _ => .wbitAnd (dOf p) (aOf p) (bOf p)
  | .wbitOr _ _ _ => .wbitOr (dOf p) (aOf p) (bOf p)
  | .wbitXor _ _ _ => .wbitXor (dOf p) (aOf p) (bOf p)
  | .wbitsSet _ _ _ _ => .wbitsSet (dOf p) (aOf p) (lenOf p) (vOf p)
  | .wbitsAnd _ _ _ _ => .wbitsAnd (dOf p) (aOf p) (lenOf p) (vOf p)
  | .wbitsOr _ _ _ _ => .wbitsOr (dOf p) (aOf p) (lenOf p) (vOf p)
  | .wbitsXor _ _ _ _ => .wbitsXor (dOf p) (aOf p) (lenOf p) (vOf p)
  | .wfillSet _ _ => .wfillSet (dOf p) (bOf p)
  | .wfillAnd _ _ => .wfillAnd (dOf p) (bOf p)
  | .wfillOr _ _ => .wfillOr (dOf p) (bOf p)
  | .wfillXor _ _ => .wfillXor (dOf p) (bOf p)
  | .wrangeSet _ _ _ _ => .wrangeSet (dOf p) (aOf p) (eOf p) (bOf p)
  | .wrangeAnd _ _ _ _ => .wrangeAnd (dOf p) (aOf p) (eOf p) (bOf p)
  | .wrangeOr _ _ _ _ => .wrangeOr (dOf p) (aOf p) (eOf p) (bOf p)
  | .wrangeXor _ _ _ _ => .wrangeXor (dOf p) (aOf p) (eOf p) (bOf p)
  | .wstoreSet _ _ _ => .wstoreSet (dOf p) (sOf p) (aOf p)
  | .wstoreAnd _ _ _ => .wstoreAnd (dOf p) (sOf p) (aOf p)
  | .wstoreOr _ _ _ => .wstoreOr (dOf p) (sOf p) (aOf p)
  | .wstoreXor _ _ _ => .wstoreXor (dOf p) (sOf p) (aOf p)

/-- A packet with the opcode of `i` selects that command, whatever the operands of `i`. -/
theorem selectCommand_of_opcode {p : Packet} {i : Instr} (h : opcodeOf p = i.opcode) :
    selectCommand p = .ok (i.withOperandsOf p) := by
  unfold selectCommand
  rw [h]
  cases i <;> rfl

/-- R55: the opcode is one of the table and its command is selected, or it is refused by name. -/
theorem selectCommand_cases (p : Packet) :
    (∃ i, selectCommand p = .ok i ∧ i.opcode = opcodeOf p) ∨
      (opcodeOf p ∉ opcodes ∧ selectCommand p = .error (.noSuchCommand (opcodeOf p))) := by
  unfold selectCommand
  split
  case h_33 =>
    refine .inr ⟨fun hmem => ?_, rfl⟩
    simp_all [opcodes, ← BitVec.toNat_inj]
  all_goals
    next hop => exact .inl ⟨_, rfl, BitVec.eq_of_toNat_eq hop.symm⟩

/-- Every command has a row in the opcode table. -/
theorem Instr.opcode_mem_opcodes (i : Instr) : i.opcode ∈ opcodes := by
  cases i <;> exact of_decide_eq_true rfl

/-- R53: the packets that select `i` have its opcode and its operands. -/
theorem selectCommand_eq_ok_iff {p : Packet} {i : Instr} :
    selectCommand p = .ok i ↔ opcodeOf p = i.opcode ∧ i.withOperandsOf p = i := by
  constructor
  · intro h
    obtain ⟨j, hj, hop⟩ | ⟨-, herr⟩ := selectCommand_cases p
    · obtain rfl : i = j := Except.ok.inj (h.symm.trans hj)
      exact ⟨hop.symm, Except.ok.inj ((selectCommand_of_opcode hop.symm).symm.trans h)⟩
    · cases h.symm.trans herr
  · rintro ⟨hop, hi⟩
    rw [selectCommand_of_opcode hop, hi]

theorem decode_of_rsv_ne {p : Packet} (h : rsvOf p ≠ 0) : decode p = .error .reservedBits := if_pos h

theorem decode_of_rsv_eq {p : Packet} (h : rsvOf p = 0) : decode p = selectCommand p := if_neg (not_not_intro h)

/-- The packets of a command: reserved bits zero, its opcode, its operands (R53, R55). -/
theorem decode_eq_ok_iff {p : Packet} {i : Instr} :
    decode p = .ok i ↔ rsvOf p = 0 ∧ opcodeOf p = i.opcode ∧ i.withOperandsOf p = i := by
  by_cases h : rsvOf p = 0
  · rw [decode_of_rsv_eq h, selectCommand_eq_ok_iff, and_iff_right h]
  · rw [decode_of_rsv_ne h]
    exact ⟨nofun, fun hi => absurd hi.1 h⟩

/-- A packet with reserved bits zero is a command exactly if the table lists its opcode. -/
theorem exists_decode_of_opcode_mem {p : Packet} (hrsv : rsvOf p = 0) (hop : opcodeOf p ∈ opcodes) :
    ∃ i, decode p = .ok i ∧ i.opcode = opcodeOf p := by
  rw [decode_of_rsv_eq hrsv]
  exact (selectCommand_cases p).resolve_right fun h => h.1 hop

theorem decode_of_opcode_not_mem {p : Packet} (hrsv : rsvOf p = 0) (hop : opcodeOf p ∉ opcodes) :
    decode p = .error (.noSuchCommand (opcodeOf p)) := by
  rw [decode_of_rsv_eq hrsv]
  obtain ⟨i, -, hi⟩ | ⟨-, herr⟩ := selectCommand_cases p
  · exact absurd (hi ▸ i.opcode_mem_opcodes) hop
  · exact herr

/-! ## Decode after encode (R59) -/

/-- The encoder writes the opcode of the command and leaves the reserved bits zero. -/
theorem encode_header (i : Instr) : opcodeOf (encode i) = i.opcode ∧ rsvOf (encode i) = 0 := by
  cases i <;> exact ⟨packCw0_opcode .., packCw0_rsv ..⟩

theorem fitsLen_iff {n : Nat} : fitsLen n = true ↔ n < 128 := decide_eq_true_iff

/-- Operands that fit their fields are read back from the packet as they were written. -/
theorem withOperandsOf_encode {i : Instr} (h : i.wellFormed = true) : i.withOperandsOf (encode i) = i := by
  cases i <;> simp_all [Instr.wellFormed, fitsLen_iff, Instr.withOperandsOf, encode]

/-- Settles O1: the packet has the header of the command, and its operands read back. -/
theorem decodeInvertsEncode : Obligations.DecodeInvertsEncode := fun i h =>
  decode_eq_ok_iff.2 ⟨(encode_header i).2, (encode_header i).1, withOperandsOf_encode h⟩

/-- Operands read from a packet fit their fields. -/
theorem wellFormed_withOperandsOf (p : Packet) (i : Instr) : (i.withOperandsOf p).wellFormed = true := by
  cases i <;> simp [Instr.withOperandsOf, Instr.wellFormed, fitsI32_aOf, fitsI32_eOf, fitsLen_lenOf]

/-- Settles O2: a decoded command has the operands of its packet. -/
theorem decodeGivesWellFormed : Obligations.DecodeGivesWellFormed := by
  intro p i h
  obtain ⟨-, -, hi⟩ := decode_eq_ok_iff.1 h
  exact hi ▸ wellFormed_withOperandsOf p i

/-! ## The fields a command uses (R56) -/

section
variable {p q : Packet}

/-! Two packets have the same bits in a field exactly if they have the same operand there. -/

@[simp] theorem fieldBits_d_inj : fieldBits q .d = fieldBits p .d ↔ dOf q = dOf p := Fin.val_inj

@[simp] theorem fieldBits_s_inj : fieldBits q .s = fieldBits p .s ↔ sOf q = sOf p := Fin.val_inj

@[simp] theorem fieldBits_len_inj : fieldBits q .len = fieldBits p .len ↔ lenOf q = lenOf p := Iff.rfl

@[simp] theorem fieldBits_b_inj : fieldBits q .b = fieldBits p .b ↔ bOf q = bOf p :=
  Function.Injective.eq_iff (f := Bool.toNat) (by decide)

@[simp] theorem fieldBits_a_inj : fieldBits q .a = fieldBits p .a ↔ aOf q = aOf p :=
  BitVec.toNat_inj.trans BitVec.toInt_inj.symm

@[simp] theorem fieldBits_e_inj : fieldBits q .e = fieldBits p .e ↔ eOf q = eOf p :=
  BitVec.toNat_inj.trans BitVec.toInt_inj.symm

@[simp] theorem fieldBits_v_inj : fieldBits q .v = fieldBits p .v ↔ vOf q = vOf p := BitVec.toNat_inj

/-- The operands of a command come from the fields it uses. -/
theorem withOperandsOf_congr {i : Instr} (h : ∀ f ∈ i.uses, fieldBits q f = fieldBits p f) :
    i.withOperandsOf q = i.withOperandsOf p := by
  cases i <;> simp_all [Instr.uses, Instr.withOperandsOf]

end

/-- A zero integer is written as the zero field. -/
theorem packCw1_a_zero (e : Int) : (packCw1 0 e).extractLsb' 0 32 = 0 := by
  refine BitVec.eq_of_getLsbD_eq fun j hj => ?_
  simp [getLsbD_packCw1, hj, -BitVec.getLsbD_eq_getElem]

theorem packCw1_e_zero (a : Int) : (packCw1 a 0).extractLsb' 32 32 = 0 := by
  refine BitVec.eq_of_getLsbD_eq fun j hj => ?_
  simp [getLsbD_packCw1, hj, -BitVec.getLsbD_eq_getElem]

/-- In a packet packed from its operands a field is zero if its operand is. -/
theorem fieldBits_packed_eq_zero {op : BitVec 8} {d s : Fin 16} {len : Nat} {b : Bool} {a e : Int} {v : Word}
    {fields : List OperandField} (hd : .d ∉ fields → d = 0) (hs : .s ∉ fields → s = 0)
    (hlen : .len ∉ fields → len = 0) (hb : .b ∉ fields → b = false) (ha : .a ∉ fields → a = 0)
    (he : .e ∉ fields → e = 0) (hv : .v ∉ fields → v = 0) {f : OperandField} (hf : f ∉ fields) :
    fieldBits ⟨packCw0 op d s len b, packCw1 a e, v⟩ f = 0 := by
  cases f with
  | d => rw [fieldBits, packCw0_d, hd hf]; rfl
  | s => rw [fieldBits, packCw0_s, hs hf]; rfl
  | len => rw [fieldBits, hlen hf, packCw0_len _ _ _ _ _ _ _ (by omega)]
  | b => rw [fieldBits, packCw0_b, hb hf]; rfl
  | a => rw [fieldBits, ha hf, packCw1_a_zero]; rfl
  | e => rw [fieldBits, he hf, packCw1_e_zero]; rfl
  | v => rw [fieldBits, hv hf]; rfl

/-- R59: "all others zero". -/
theorem fieldBits_encode_of_not_mem_uses {i : Instr} {f : OperandField} (h : f ∉ i.uses) :
    fieldBits (encode i) f = 0 := by
  cases i <;> refine fieldBits_packed_eq_zero ?_ ?_ ?_ ?_ ?_ ?_ ?_ h <;> simp [Instr.uses]

/-- Settles O4: the operands of a command come from the fields it uses, and the encoder leaves the others zero. -/
theorem unusedFieldsIgnored : Obligations.UnusedFieldsIgnored := by
  refine ⟨fun p q i hp hop hrsv hfields => ?_, fun i f => fieldBits_encode_of_not_mem_uses⟩
  obtain ⟨-, hpop, hi⟩ := decode_eq_ok_iff.1 hp
  exact decode_eq_ok_iff.2 ⟨hrsv, hop.trans hpop, (withOperandsOf_congr hfields).trans hi⟩

end Sys2Proof
end

section
/-! The opcode table read as masks (R58), the packet as its 192 bits (R50), and the packets the spec writes out (R59). -/

namespace Sys2Proof

/-- The mask of R58 keeps the opcode, bits 0 to 7, and the reserved bits, 24 to 63. -/
theorem getLsbD_tableMask {j : Nat} (hj : j < 64) : tableMask.getLsbD j = (decide (j < 8) || decide (24 ≤ j)) := by
  have h : ∀ k : Fin 64, tableMask.getLsbD k = (decide ((k : Nat) < 8) || decide (24 ≤ (k : Nat))) := by decide
  exact h ⟨j, hj⟩

theorem getLsbD_opcodeOf (p : Packet) (j : Nat) : (opcodeOf p).getLsbD j = (decide (j < 8) && p.cw0.getLsbD j) := by
  rw [opcodeOf, BitVec.getLsbD_extractLsb', Nat.zero_add]

theorem getLsbD_rsvOf (p : Packet) (j : Nat) :
    (rsvOf p).getLsbD j = (decide (j < 40) && p.cw0.getLsbD (24 + j)) :=
  BitVec.getLsbD_extractLsb' ..


/-- R58: a packet matches a row exactly if its opcode is the row's and its reserved bits are zero. -/
theorem masked_eq_iff {p : Packet} {c : BitVec 8} :
    p.cw0 &&& tableMask = c.setWidth 64 ↔ opcodeOf p = c ∧ rsvOf p = 0 := by
  have hmask : ∀ j < 64, (p.cw0 &&& tableMask).getLsbD j = (p.cw0.getLsbD j && (decide (j < 8) || decide (24 ≤ j))) :=
    fun j hj => by rw [BitVec.getLsbD_and, getLsbD_tableMask hj]
  have hrow : ∀ j < 64, (c.setWidth 64).getLsbD j = c.getLsbD j :=
    fun j hj => by rw [BitVec.getLsbD_setWidth, decide_eq_true hj, Bool.true_and]
  constructor
  · intro h
    have hbit : ∀ j < 64, (p.cw0.getLsbD j && (decide (j < 8) || decide (24 ≤ j))) = c.getLsbD j :=
      fun j hj => by rw [← hmask j hj, h, hrow j hj]
    refine ⟨BitVec.eq_of_getLsbD_eq fun j hj => ?_, BitVec.eq_of_getLsbD_eq fun j hj => ?_⟩
    · rw [getLsbD_opcodeOf, ← hbit j (by omega)]
      simp [hj, -BitVec.getLsbD_eq_getElem]
    · have h0 : c.getLsbD (24 + j) = false := BitVec.getLsbD_of_ge _ _ (by omega)
      simpa [getLsbD_rsvOf, hj, h0, -BitVec.getLsbD_eq_getElem] using hbit (24 + j) (by omega)
  · rintro ⟨rfl, hrsv⟩
    refine BitVec.eq_of_getLsbD_eq fun j hj => ?_
    rw [hmask j hj, hrow j hj, getLsbD_opcodeOf]
    by_cases hj24 : 24 ≤ j
    · have h0 : p.cw0.getLsbD j = false := by
        have := getLsbD_rsvOf p (j - 24)
        rw [hrsv, Nat.add_sub_cancel' hj24, decide_eq_true (by omega), Bool.true_and] at this
        simpa using this.symm
      simp [h0]
    · simp [hj24, Bool.and_comm]

/-- Settles O5: the rows a packet matches are the row of its opcode, and none where its reserved bits are not zero. -/
theorem tableRowsSelectCommands : Obligations.TableRowsSelectCommands := by
  intro p
  have hrow : ∀ i, decode p = .ok i → p.cw0 &&& tableMask = i.opcode.setWidth 64 := fun i h => by
    obtain ⟨hrsv, hop, -⟩ := decode_eq_ok_iff.1 h
    exact masked_eq_iff.2 ⟨hop, hrsv⟩
  refine ⟨fun c hc => ⟨fun h => ?_, fun ⟨i, hi, hop⟩ => hop ▸ hrow i hi⟩, fun hnone => ?_⟩
  · obtain ⟨rfl, hrsv⟩ := masked_eq_iff.1 h
    exact exists_decode_of_opcode_mem hrsv hc
  · cases h : decode p with
    | ok i => exact absurd (hrow i h) (hnone _ i.opcode_mem_opcodes)
    | error e => exact ⟨e, rfl⟩

/-- Settles O6: the words are the three runs of 64 bits of the value, joined in the same order. -/
theorem packetIsItsBits : Obligations.PacketIsItsBits := by
  intro x
  have hcw0 : ∀ j < 64, (packetOfBits x).cw0.getLsbD j = x.getLsbD j := fun j hj => by
    simp [packetOfBits, hj, -BitVec.getLsbD_eq_getElem]
  have hcw1 : ∀ j < 64, (packetOfBits x).cw1.getLsbD j = x.getLsbD (64 + j) := fun j hj => by
    simp [packetOfBits, hj, -BitVec.getLsbD_eq_getElem]
  have hcw2 : ∀ j < 64, (packetOfBits x).cw2.getLsbD j = x.getLsbD (128 + j) := fun j hj => by
    simp [packetOfBits, hj, -BitVec.getLsbD_eq_getElem]
  refine ⟨BitVec.eq_of_getLsbD_eq fun j hj => ?_, fun j hj => ⟨hcw0 j hj, hcw1 j hj, hcw2 j hj⟩⟩
  rw [getLsbD_packetBits]
  by_cases h0 : j < 64
  · rw [if_pos h0, hcw0 j h0]
  by_cases h1 : j - 64 < 64
  · rw [if_neg h0, if_pos h1, hcw1 _ h1, Nat.add_sub_cancel' (Nat.le_of_not_lt h0)]
  · rw [if_neg h0, if_neg h1, hcw2 _ (by omega), show 128 + (j - 64 - 64) = j by omega]

/-- The packet the encoder writes for a well-formed command decodes to it. -/
theorem decode_of_eq_encode {p : Packet} {i : Instr} (hp : p = encode i) (hi : i.wellFormed = true) :
    decode p = .ok i := by
  rw [hp, decodeInvertsEncode i hi]

/-- Settles O7: each packet is what the encoder writes for its command. -/
theorem workedPacketsDecode : Obligations.WorkedPacketsDecode := by
  refine ⟨?_, ?_, ?_, ?_, ?_, ?_, ?_, ?_, ?_, ?_⟩ <;> exact decode_of_eq_encode (by decide) (by decide)

end Sys2Proof
end

section
/-! The step on each thing the host can issue (R55, R168, R169), and that it always answers (R167). -/

namespace Sys2Proof.Machine

/-! ## The step takes one packet off the port -/

theorem step_of_idle {s : State} (h : s.port = []) : step s = .next s := by
  simp only [step, h]

theorem step_of_decode_ok {s : State} {p : Packet} {rest : List HostEvent} {i : Instr}
    (hport : s.port = .packet p :: rest) (hp : decode p = .ok i) : step s = exec i { s with port := rest } := by
  simp only [step, hport, hp]

theorem step_of_decode_error {s : State} {p : Packet} {rest : List HostEvent} {e : DecodeError}
    (hport : s.port = .packet p :: rest) (hp : decode p = .error e) :
    step s = .next ({ s with port := rest }.raise .invalidArgument) := by
  simp only [step, hport, hp, State.undecodable]

/-- Settles O8: the two cases of the step with no error and no reset. -/
theorem stepRunsDecodedCommand : Obligations.StepRunsDecodedCommand :=
  ⟨fun _ _ _ _ => step_of_decode_ok, fun _ => step_of_idle⟩

/-- Settles O3: the cases of `decode`, and what the step does with a command and with an error. -/
theorem decodeRefusesByName : Obligations.DecodeRefusesByName := by
  intro p
  refine ⟨decode_of_rsv_ne, decode_of_opcode_not_mem, fun hrsv hop => ?_, fun s rest e => step_of_decode_error⟩
  obtain ⟨i, hi, hiop⟩ := exists_decode_of_opcode_mem hrsv hop
  exact ⟨i, hi, hiop, fun s rest hport => step_of_decode_ok hport hi⟩

/-! ## Every command answers where the invariant holds -/

/-- The outcome is a next state: no fault, no refusal. -/
def Answers (o : Host.Outcome State Fault Refusal) : Prop := ∃ t, o = .next t

theorem answers_next (t : State) : Answers (.next t) := ⟨t, rfl⟩

section
variable {s : State}

/-- A failed check answers; one that passes leaves it to the rest. -/
theorem answers_checked {e : Option Code} {k : Host.Outcome State Fault Refusal} (hk : e = none → Answers k) :
    Answers (s.checked e k) := by
  cases e with
  | none => exact hk rfl
  | some c => exact answers_next _

theorem answers_within {lo hi : Nat} {k : Host.Outcome State Fault Refusal} (h : hi ≤ s.nbits) (hk : Answers k) :
    Answers (s.within lo hi k) := by
  rwa [State.within_of_le _ _ _ _ (.inr h)]

/-- The checks of a write-class command: the rest runs only if its arguments passed. -/
theorem answers_gated {e g : Option Code} {k : Host.Outcome State Fault Refusal} (hk : e = none → Answers k) :
    Answers (s.checked (firstFailure e g) k) :=
  answers_checked fun h => hk ((firstFailure_eq_none e g).1 h).1

theorem answers_constRange {k : Kind} {b : Bool} {lo hi : Nat} (h : hi ≤ s.nbits) : Answers (constRange k b lo hi s) := by
  unfold constRange
  cases rationalise k b with
  | none => exact answers_next _
  | some op => exact answers_within h (answers_next _)

/-! What passes its check ends inside `WM`. -/

variable (hinv : s.inv) {d : Fin 16}
include hinv

theorem State.inv_index_le {a : Int} (hc : indexCheck (s.window d).size a = none) : (s.window d).abs a + 1 ≤ s.nbits := by
  have hfin := s.inv_finish_le hinv d
  have hin := mem_window_of_indexCheck hc
  omega

theorem State.inv_span_le {a : Int} {len : Nat} (hc : spanCheck (s.window d).size a len = none) :
    (s.window d).abs a + len ≤ s.nbits := by
  rw [spanCheck_eq_none] at hc
  have hfin := s.inv_finish_le hinv d
  have habs := s.inv_abs_le hinv d (a + len) (by omega) hc.2.2
  unfold Descriptor.abs at *
  omega

theorem State.inv_range_le {a e : Int} (hc : rangeCheck (s.window d).size a e = none) : (s.window d).abs e ≤ s.nbits := by
  rw [rangeCheck_eq_none] at hc
  exact (s.inv_abs_le hinv d e (by omega) hc.2.2).2.trans (s.inv_finish_le hinv d)

theorem State.inv_source_le (r : Fin 16) : (s.window r).start + (s.window r).count ≤ s.nbits := by
  have hle := s.inv_start_le hinv r
  have hfin := s.inv_finish_le hinv r
  unfold Descriptor.count
  omega

theorem State.inv_store_le {r : Fin 16} {a : Int} (hc : storeCheck (s.window d).size (s.window r).size a = none) :
    (s.window d).abs a + (s.window r).count ≤ s.nbits := by
  rw [storeCheck_eq_none] at hc
  have hsize := (s.window r).size_of_le (s.inv_start_le hinv r)
  have hfin := s.inv_finish_le hinv d
  have habs := s.inv_abs_le hinv d (a + (s.window r).size) (by omega) hc.2
  unfold Descriptor.abs at *
  omega

/-- R167: every command answers, in every state that meets the invariant. -/
theorem exec_answers (i : Instr) : Answers (exec i s) := by
  cases i with
  | nop | dimm | size => exact answers_next _
  | dset | dview | mrd | mwr => exact answers_checked fun _ => answers_next _
  | getbit => exact answers_checked fun hc => answers_within (State.inv_index_le hinv hc) (answers_next _)
  | getbits => exact answers_checked fun hc => answers_within (State.inv_span_le hinv hc) (answers_next _)
  | rset | rclr | rxor => exact answers_gated fun hc => answers_within (State.inv_range_le hinv hc) (answers_next _)
  | wbitSet | wbitAnd | wbitOr | wbitXor =>
    exact answers_gated fun hc => answers_within (State.inv_index_le hinv hc) (answers_next _)
  | wbitsSet | wbitsAnd | wbitsOr | wbitsXor =>
    exact answers_gated fun hc => answers_within (State.inv_span_le hinv hc) (answers_next _)
  | wfillSet d | wfillAnd d | wfillOr d | wfillXor d =>
    exact answers_checked fun _ => answers_constRange (s.inv_finish_le hinv d)
  | wrangeSet | wrangeAnd | wrangeOr | wrangeXor =>
    exact answers_gated fun hc => answers_constRange (State.inv_range_le hinv hc)
  | wstoreSet _ r | wstoreAnd _ r | wstoreOr _ r | wstoreXor _ r =>
    exact answers_gated fun hc =>
      answers_within (State.inv_source_le hinv r) (answers_within (State.inv_store_le hinv hc) (answers_next _))

end

/-- Settles O13: an idle step, a reset and a packet that does not decode answer in every state, a command where the
invariant holds, which does not speak of the port. -/
theorem stepAlwaysAnswers : Obligations.StepAlwaysAnswers := by
  intro s hinv
  cases hport : s.port with
  | nil => exact ⟨s, step_of_idle hport⟩
  | cons event rest =>
    cases event with
    | reset => exact ⟨_, step_of_reset hport⟩
    | packet p =>
      cases hp : decode p with
      | error e => exact ⟨_, step_of_decode_error hport hp⟩
      | ok i =>
        have hinv' : { s with port := rest }.inv := hinv
        exact step_of_decode_ok hport hp ▸ exec_answers hinv' i

end Sys2Proof.Machine
end

section
/-! `NEW`: a window defined and cleared (R60, R161). -/

namespace Sys2Proof.Machine

/-- R71: `DSET` with bounds inside `WM` defines the window. -/
theorem execDset_of_bounds {d : Fin 16} {a e : Int} {b : Bool} {s : State} (h0 : 0 ≤ a) (h1 : a ≤ e)
    (h2 : e ≤ (s.nbits : Int)) :
    execDset d a e b s = .next ((s.setWindow d ⟨a.toNat, e.toNat, b⟩).done 0) := by
  rw [execDset, (windowCheck_eq_none ..).2 ⟨h0, h1, h2⟩, State.checked_none]

@[simp] theorem Descriptor.abs_zero (w : Descriptor) : w.abs 0 = w.start := by
  unfold Descriptor.abs; omega

theorem Descriptor.abs_size {w : Descriptor} (h : w.start ≤ w.finish) : w.abs w.size = w.finish := by
  unfold Descriptor.abs Descriptor.size; omega

/-- R93: a range command with a range inside its mutable window, which ends inside `WM`, has its effect. -/
theorem rangeCommand_of_range {op : RangeOp} {d : Fin 16} {a e : Int} {s : State} (h0 : 0 ≤ a) (h1 : a ≤ e)
    (h2 : e ≤ (s.window d).size) (hmut : (s.window d).mutable = true) (hin : (s.window d).abs e ≤ s.nbits) :
    rangeCommand op d a e s = .next ((s.applyRange op ((s.window d).abs a) ((s.window d).abs e)).done 0) := by
  rw [rangeCommand, (rangeCheck_eq_none ..).2 ⟨h0, h1, h2⟩, (gate_eq_none _).2 hmut, firstFailure_none,
    State.checked_none, State.within_of_le _ _ _ _ (.inr hin)]

/-- A range command over the whole of a mutable window inside `WM` acts on the window's bits. -/
theorem rangeCommand_whole {op : RangeOp} {d : Fin 16} {s : State} {w : Descriptor} (hw : s.window d = w)
    (hle : w.start ≤ w.finish) (hmut : w.mutable = true) (hin : w.finish ≤ s.nbits) :
    rangeCommand op d 0 w.size s = .next ((s.applyRange op w.start w.finish).done 0) := by
  subst hw
  have hsize : 0 ≤ (s.window d).size := Int.sub_nonneg_of_le (Int.ofNat_le.2 hle)
  rw [rangeCommand_of_range le_rfl hsize le_rfl hmut (by rwa [Descriptor.abs_size hle]), Descriptor.abs_zero,
    Descriptor.abs_size hle]

/-- Settles O48: `DSET` defines the window, and the range that `RCLR` clears is the whole of it. -/
theorem newZeroFillsItsWindow : Obligations.NewZeroFillsItsWindow := by
  intro d a e s _ h0 h1 h2
  have hwin := s.setWindow_window_self d ⟨a.toNat, e.toNat, true⟩
  have hsize : Descriptor.size ⟨a.toNat, e.toNat, true⟩ = e - a := by
    simp only [Descriptor.size]; omega
  have hrclr := rangeCommand_whole (op := .clear) (s := (s.setWindow d ⟨a.toNat, e.toNat, true⟩).done 0) hwin
    (Int.toNat_le_toNat h1) rfl (Int.toNat_le.2 h2)
  rw [hsize] at hrclr
  refine ⟨rfl, _, execDset_of_bounds h0 h1 h2, _, hrclr, hwin, fun x hx => s.setWindow_window_ne d x _ hx,
    fun x hx0 hx1 => ?_, fun x hx => ?_, rfl, rfl, rfl, rfl⟩
  · rw [State.done_bit, State.bit_applyRange, if_pos ⟨hx0, hx1⟩, rangeBit]
  · rw [State.done_bit, State.bit_applyRange, if_neg hx, State.done_bit, State.setWindow_bit]

end Sys2Proof.Machine
end

section
/-! Word storage, the descriptor commands `NOP`, `DSET`, `DVIEW`, `DIMM`, `SIZE` (R70 to R74). -/

namespace Sys2Proof.Machine

/-- Settles O22: opcode 0 has no operand to compare, and `NOP` only responds. -/
theorem nopWritesOnlyResponse : Obligations.NopWritesOnlyResponse :=
  ⟨by decide, fun _ hop hrsv => decode_eq_ok_iff.2 ⟨hrsv, hop, rfl⟩, fun _ _ => decode_of_rsv_ne, fun _ => rfl⟩

/-- A command that writes descriptor `d` and responds leaves the other windows, `WM` and the model's own fields. -/
theorem State.setWindow_done_frame (s : State) (d : Fin 16) (w : Descriptor) :
    (∀ x, x ≠ d → ((s.setWindow d w).done 0).window x = s.window x) ∧ ((s.setWindow d w).done 0).wm = s.wm ∧
      ((s.setWindow d w).done 0).resp = ⟨.ok, 0⟩ ∧ s.sameModel ((s.setWindow d w).done 0) :=
  ⟨fun x hx => s.setWindow_window_ne d x w hx, rfl, rfl, rfl, rfl, rfl⟩

/-- The written window reads as written after the response. -/
theorem State.setWindow_done_window_self (s : State) (d : Fin 16) (w : Descriptor) (v : Word) :
    ((s.setWindow d w).done v).window d = w := s.setWindow_window_self d w

/-- Settles O23: the three checks of R71 are `windowCheck`, and the bounds that pass are the window's. -/
theorem dsetDefinesWindow : Obligations.DsetDefinesWindow := by
  intro d a e b s
  refine ⟨(encode_header _).1, by decide, fun hbad => exec_of_argumentCheck_ne_none fun hnone => ?_,
    fun h0 h1 h2 => ⟨_, execDset_of_bounds h0 h1 h2, ?_⟩⟩
  · obtain ⟨h0, h1, h2⟩ := (windowCheck_eq_none s.nbits a e).1 hnone
    unfold State.nbits at h2
    omega
  · beta_reduce
    rw [State.setWindow_done_window_self]
    exact ⟨Int.toNat_of_nonneg h0, Int.toNat_of_nonneg (h0.trans h1), rfl, s.setWindow_done_frame d _⟩

/-- R31: an absolute offset as an integer. -/
theorem Descriptor.natCast_abs {w : Descriptor} {i : Int} (h : 0 ≤ i) : (w.abs i : Int) = w.start + i :=
  Int.toNat_of_nonneg (Int.add_nonneg (Int.natCast_nonneg _) h)

/-- R72: `DVIEW` with a range inside the source's window defines the view. -/
theorem execDview_of_range {d r : Fin 16} {a e : Int} {s : State} (h0 : 0 ≤ a) (h1 : a ≤ e)
    (h2 : e ≤ (s.window r).size) :
    execDview d r a e s =
      .next ((s.setWindow d ⟨(s.window r).abs a, (s.window r).abs e, (s.window r).mutable⟩).done 0) := by
  rw [execDview, (rangeCheck_eq_none ..).2 ⟨h0, h1, h2⟩, State.checked_none]

/-- Settles O24: the three checks of R72 are `rangeCheck` on the source, whose offsets add to the range. -/
theorem dviewNarrowsWindow : Obligations.DviewNarrowsWindow := by
  intro d r a e s
  refine ⟨(encode_header _).1, by decide, fun hbad => exec_of_argumentCheck_ne_none fun hnone => ?_,
    fun h0 h1 h2 => ⟨_, execDview_of_range h0 h1 h2, ?_⟩⟩
  · obtain ⟨h0, h1, h2⟩ := (rangeCheck_eq_none (s.window r).size a e).1 hnone
    omega
  · beta_reduce
    rw [State.setWindow_done_window_self]
    exact ⟨Descriptor.natCast_abs h0, Descriptor.natCast_abs (h0.trans h1), rfl, s.setWindow_done_frame d _⟩

/-- Settles O25: `DIMM` has no check and writes one descriptor. -/
theorem dimmMakesImmutableView : Obligations.DimmMakesImmutableView := fun d _ s =>
  ⟨(encode_header _).1, by decide, _, rfl, s.setWindow_done_window_self d _ 0, s.setWindow_done_frame d _⟩

/-- R4: the bits of an engine of an admitted size are fewer than `2^31`. -/
theorem State.inv_nbits_lt {s : State} (h : s.inv) : s.nbits < 2 ^ 31 := by
  obtain ⟨⟨-, hmax⟩, -⟩ := h
  unfold Config.maxWords at hmax
  unfold State.nbits
  omega

/-- Settles O27: a legal window has `finish - start` bits, at most `NBITS`, so its size is a word. -/
theorem sizeAnswersFinishMinusStart : Obligations.SizeAnswersFinishMinusStart := by
  intro d s hinv
  have hnbits := State.inv_nbits_lt hinv
  have hcount : (s.window d).count ≤ s.nbits := (Nat.sub_le ..).trans (s.inv_finish_le hinv d)
  have hval : (BitVec.ofInt 64 (s.window d).size).toNat = (s.window d).count := by
    rw [Descriptor.size_of_le _ (s.inv_start_le hinv d), BitVec.ofInt_natCast, BitVec.toNat_ofNat]
    omega
  exact ⟨(encode_header _).1, by decide, _, rfl, rfl, hval, hval.trans_le hcount,
    hval.trans_lt (hcount.trans_lt hnbits), rfl⟩

end Sys2Proof.Machine
end

section
/-! Word storage, the word commands `MRD` and `MWR` (R75, R76). -/

namespace Sys2Proof.Machine

/-- The one check of R75 and R76 fails on an index outside `WM`. -/
theorem wordCheck_ne_none {n : Nat} {a : Int} (h : a < 0 ∨ a ≥ (n : Int)) : wordCheck n a ≠ none := by
  rw [Ne, wordCheck_eq_none]; omega

theorem execMrd_of_index {a : Int} {s : State} (h0 : 0 ≤ a) (h1 : a < (s.nwords : Int)) :
    execMrd a s = .next (s.done (s.word a.toNat)) := by
  rw [execMrd, (wordCheck_eq_none ..).2 ⟨h0, h1⟩, State.checked_none]

/-- Settles O28: `MRD` checks its index and answers the word. -/
theorem mrdReadsWord : Obligations.MrdReadsWord := fun _ _ =>
  ⟨(encode_header _).1, by decide, fun h => exec_of_argumentCheck_ne_none (wordCheck_ne_none h), execMrd_of_index⟩

theorem execMwr_of_index {a : Int} {v : Word} {s : State} (h0 : 0 ≤ a) (h1 : a < (s.nwords : Int)) :
    execMwr a v s = .next ((s.setWord a.toNat v).done 0) := by
  rw [execMwr, (wordCheck_eq_none ..).2 ⟨h0, h1⟩, State.checked_none]

/-- The written word reads as written. -/
@[simp] theorem State.word_setWord_self (s : State) (w : Nat) (v : Word) : (s.setWord w v).word w = v := by
  rw [State.word_setWord, if_pos rfl]

theorem State.word_setWord_ne (s : State) {w x : Nat} (v : Word) (h : x ≠ w) : (s.setWord w v).word x = s.word x := by
  rw [State.word_setWord, if_neg h]

/-- Settles O29: `MWR` checks its index and writes the word, and the bits of a word are its own. -/
theorem mwrWritesWord : Obligations.MwrWritesWord := by
  intro a v s
  refine ⟨(encode_header _).1, by decide, fun h => exec_of_argumentCheck_ne_none (wordCheck_ne_none h),
    fun h0 h1 => ⟨_, execMwr_of_index h0 h1, s.word_setWord_self .., fun w hw => s.word_setWord_ne v hw,
      fun j hj => ?_, fun x hx => ?_, rfl, rfl, rfl, rfl, rfl⟩⟩
  · rw [State.done_bit, ← State.getLsbD_word _ _ _ hj, State.word_setWord_self]
  · rw [State.done_bit, State.bit_setWord, if_neg (by omega)]

end Sys2Proof.Machine
end

section
/-! An immutable view: no write passes through it, and what is written through its source is read through it (R73). -/

namespace Sys2Proof.Machine

/-- R102: a `WBIT` that ends `OK` wrote its one bit, and `WM` has the word of that bit. -/
theorem bitCommand_of_ok {k : Kind} {d : Fin 16} {a : Int} {b : Bool} {s t : State}
    (h : bitCommand k d a b s = .next t) (hok : t.resp.code = .ok) :
    (s.window d).abs a + 1 ≤ s.nbits ∧ t = (s.writeBit k ((s.window d).abs a) b).done 0 := by
  rw [bitCommand, State.checked_firstFailure] at h
  obtain ⟨c, hc, rfl⟩ | ⟨-, h⟩ := State.checked_next _ _ _ _ h
  · cases indexCheck_some _ _ _ hc
    cases hok
  obtain ⟨c, hc, rfl⟩ | ⟨-, h⟩ := State.checked_next _ _ _ _ h
  · cases (gate_some _ _ hc).1
    cases hok
  obtain ⟨hin, h⟩ := State.within_next _ _ _ _ _ h
  exact ⟨by omega, eq_of_next h⟩

/-- R83: `GETBIT` with an index inside its window answers the bit, where `WM` has its word. -/
theorem execGetbit_of_index {d : Fin 16} {a : Int} {s : State} (h0 : 0 ≤ a) (h1 : a < (s.window d).size)
    (hin : (s.window d).abs a + 1 ≤ s.nbits) :
    execGetbit d a s = .next (s.done (wordOfBit (s.bit ((s.window d).abs a)))) := by
  rw [execGetbit, (indexCheck_eq_none ..).2 ⟨h0, h1⟩, State.checked_none, State.within_of_le _ _ _ _ (.inr hin)]

/-- R21: a bit that a `WBIT` combined through one window is what `GETBIT` answers through another that has it. -/
theorem getbit_after_wbit {k : Kind} {d r : Fin 16} {i a : Int} {b : Bool} {s t : State}
    (h : bitCommand k r a b s = .next t) (hok : t.resp.code = .ok) (h0 : 0 ≤ i) (h1 : i < (s.window d).size)
    (habs : (s.window d).abs i = (s.window r).abs a) :
    execGetbit d i t = .next (t.done (wordOfBit (comb k (s.bit ((s.window r).abs a)) b))) := by
  obtain ⟨hin, ht⟩ := bitCommand_of_ok h hok
  have hwin : t.window d = s.window d := by rw [ht]; rfl
  have hnbits : t.nbits = s.nbits := by rw [ht]; rfl
  have hbit : t.bit ((s.window r).abs a) = comb k (s.bit ((s.window r).abs a)) b := by
    rw [ht, State.done_bit, State.bit_writeBit, if_pos rfl]
  rw [execGetbit_of_index h0 (by rwa [hwin]) (by rwa [hwin, habs, hnbits]), hwin, habs, hbit]

/-- Settles O26: the gate of the view stops every write, and the view has the offsets of its source. -/
theorem immutableViewSeesButCannotWrite : Obligations.ImmutableViewSeesButCannotWrite := by
  intro d r s t _ ht
  obtain rfl := eq_of_next ht
  have hview := s.setWindow_done_window_self d ⟨(s.window r).start, (s.window r).finish, false⟩ 0
  refine ⟨fun i hi => exec_of_immutable_target_fails hi (by rw [hview]), fun a b u hne h0 h1 hu hok => ?_⟩
  have hsource := (s.setWindow_done_frame d ⟨(s.window r).start, (s.window r).finish, false⟩).1 r hne.symm
  exact getbit_after_wbit hu hok h0 (by rwa [hview]) (by rw [hview, hsource]; rfl)

end Sys2Proof.Machine
end

section
/-! The span read, word by word (R80, R81). -/

namespace Sys2Proof.Machine

/-- R81, the low part: the first word shifted down has the bits of the span that lie in that word. -/
theorem State.getLsbD_word_shiftRight (s : State) (a j : Nat) :
    (s.word (a / 64) >>> (a % 64)).getLsbD j = (decide (a % 64 + j < 64) && s.bit (a + j)) := by
  rw [BitVec.getLsbD_ushiftRight]
  by_cases h : a % 64 + j < 64
  · have hoff : 64 * (a / 64) + (a % 64 + j) = a + j := by omega
    rw [State.getLsbD_word _ _ _ h, hoff, decide_eq_true h, Bool.true_and]
  · rw [BitVec.getLsbD_of_ge _ _ (Nat.le_of_not_lt h), decide_eq_false h, Bool.false_and]

/-- R81, the high part: the second word shifted up has the bits of the span that lie in that word. -/
theorem State.getLsbD_word_shiftLeft (s : State) (a : Nat) {j : Nat} (hj : j < 64) :
    (s.word (a / 64 + 1) <<< (64 - a % 64)).getLsbD j = (decide (64 ≤ a % 64 + j) && s.bit (a + j)) := by
  rw [BitVec.getLsbD_shiftLeft, decide_eq_true hj, Bool.true_and]
  by_cases h : 64 ≤ a % 64 + j
  · have hoff : 64 * (a / 64 + 1) + (j - (64 - a % 64)) = a + j := by omega
    rw [State.getLsbD_word _ _ _ (by omega), hoff, decide_eq_true h, decide_eq_false (by omega), Bool.not_false]
  · rw [decide_eq_false h, decide_eq_true (by omega), Bool.not_true, Bool.false_and, Bool.false_and]

/-- R81, bit by bit: the low part alone has the whole span when it ends in its first word, the two parts together when
it does not. -/
theorem State.getLsbD_readSpanWords (s : State) (a len : Nat) {j : Nat} (hj : j < 64) :
    (s.readSpanWords a len).getLsbD j = (decide (j < len) && s.bit (a + j)) := by
  unfold State.readSpanWords
  dsimp only
  split
  · next hlen => simp [hlen]
  · split
    · next hone =>
      rw [BitVec.getLsbD_and, State.getLsbD_word_shiftRight, getLsbD_maskOf, decide_eq_true hj, Bool.true_and]
      by_cases h : j < len
      · rw [decide_eq_true h, decide_eq_true (by omega), Bool.and_true]
      · rw [decide_eq_false h, Bool.and_false, Bool.false_and]
    · rw [BitVec.getLsbD_and, BitVec.getLsbD_or, State.getLsbD_word_shiftRight, State.getLsbD_word_shiftLeft _ _ hj,
        getLsbD_maskOf, decide_eq_true hj, Bool.true_and, ← Bool.and_or_distrib_right, Bool.and_comm]
      have hpart : (decide (a % 64 + j < 64) || decide (64 ≤ a % 64 + j)) = true := by
        simp only [Bool.or_eq_true, decide_eq_true_eq]; omega
      rw [hpart, Bool.true_and]

/-- Settles O32: the two spans have the same 64 bits, and a span that does not end in its first word starts above that
word's bit 0. -/
theorem readSpanAlgorithmAgrees : Obligations.ReadSpanAlgorithmAgrees := by
  intro s a len hlen
  refine ⟨word_ext _ _ fun j hj => ?_, fun j hj => s.getLsbD_readSpanWords a len hj, fun htwo hin => ?_⟩
  · rw [s.getLsbD_readSpanWords a len hj, s.getLsbD_readSpan, decide_eq_true hj, Bool.true_and]
  · omega

end Sys2Proof.Machine
end

section
/-! Bit access, the read side (R83, R84). -/

namespace Sys2Proof.Machine

/-- The checks of R83 fail on an index outside the window. -/
theorem indexCheck_ne_none {sz a : Int} (h : a < 0 ∨ a ≥ sz) : indexCheck sz a ≠ none := by
  rw [Ne, indexCheck_eq_none]; omega

/-- Settles O30: what passes the checks of R83 lies inside its window, hence inside `WM`. -/
theorem getbitReadsWindowBit : Obligations.GetbitReadsWindowBit := fun _ _ _ =>
  ⟨(encode_header _).1, by decide, fun h => exec_of_argumentCheck_ne_none (indexCheck_ne_none h),
    fun hinv h0 h1 => ⟨Descriptor.natCast_abs h0,
      execGetbit_of_index h0 h1 (State.inv_index_le hinv ((indexCheck_eq_none ..).2 ⟨h0, h1⟩))⟩⟩

/-- The checks of R84 fail on a span that is too long or does not lie inside the window. -/
theorem spanCheck_ne_none {sz a : Int} {len : Nat} (h : len > 64 ∨ a < 0 ∨ a + len > sz) :
    spanCheck sz a len ≠ none := by
  rw [Ne, spanCheck_eq_none]; omega

/-- R84: `GETBITS` with a span that passes its checks answers the span, in a state that meets the invariant. -/
theorem execGetbits_of_span {d : Fin 16} {a : Int} {len : Nat} {s : State} (hinv : s.inv)
    (hc : spanCheck (s.window d).size a len = none) :
    execGetbits d a len s = .next (s.done (s.readSpan ((s.window d).abs a) len)) := by
  rw [execGetbits, hc, State.checked_none, State.within_of_le _ _ _ _ (.inr (State.inv_span_le hinv hc))]

/-- Settles O31: `GETBITS` answers `readSpan`, whose bits are those of R80. -/
theorem getbitsReadsSpan : Obligations.GetbitsReadsSpan := by
  intro d a len s
  refine ⟨(encode_header _).1, by decide, fun h => exec_of_argumentCheck_ne_none (spanCheck_ne_none h),
    fun hinv hlen h0 h1 => ⟨_, execGetbits_of_span hinv ((spanCheck_eq_none ..).2 ⟨hlen, h0, h1⟩),
      Descriptor.natCast_abs h0, rfl, fun j hj => ?_, rfl⟩⟩
  rw [State.done_resp, State.getLsbD_readSpan, decide_eq_true hj, Bool.true_and]

end Sys2Proof.Machine
end

section
/-! The range operation, word by word (R90, R91, R92). -/

namespace Sys2Proof.Machine

/-! ## The masks -/

/-- R91: the front mask has the bits of the first word from the start of the range on. -/
theorem getLsbD_frontMask (lo : Nat) {j : Nat} (hj : j < 64) : (frontMask lo).getLsbD j = decide (lo % 64 ≤ j) := by
  have hcount : j - lo % 64 < 64 := (Nat.sub_le ..).trans_lt hj
  rw [frontMask, BitVec.getLsbD_shiftLeft, getLsbD_ones, decide_eq_true hj, decide_eq_true hcount, Bool.true_and,
    Bool.and_true, ← decide_not, decide_eq_decide, Nat.not_lt]

/-- R91, R92 (b): the tail mask has the bits of the last word before the end of the range. -/
theorem getLsbD_tailMask (hi j : Nat) : (tailMask hi).getLsbD j = decide (j < hi - 64 * ((hi - 1) / 64)) := by
  rw [tailMask, BitVec.getLsbD_ushiftRight, getLsbD_ones, decide_eq_decide]
  omega

/-! ## The per-bit operation, read by words -/

/-- R90 on one word: `apply` under a mask that has exactly the word's bits of the range. -/
theorem State.word_applyRange_of_mask {s : State} {op : RangeOp} {lo hi w : Nat} {m : Word}
    (hm : ∀ j < 64, m.getLsbD j = true ↔ lo ≤ 64 * w + j ∧ 64 * w + j < hi) :
    (s.applyRange op lo hi).word w = rangeWord op (s.word w) m :=
  word_ext _ _ fun j hj => by
    rw [State.getLsbD_word _ _ _ hj, State.bit_applyRange, getLsbD_rangeWord _ _ _ _ hj, State.getLsbD_word _ _ _ hj]
    simp only [hm j hj]

/-- R90 on a word that has no bit of the range. -/
theorem State.word_applyRange_of_outside {s : State} {op : RangeOp} {lo hi w : Nat}
    (h : w < lo / 64 ∨ (hi - 1) / 64 < w) : (s.applyRange op lo hi).word w = s.word w :=
  word_ext _ _ fun j hj => by
    rw [State.getLsbD_word _ _ _ hj, State.bit_applyRange, if_neg (by omega), State.getLsbD_word _ _ _ hj]

/-! ## The algorithm -/

/-- R91: the loop applies the op to each whole word of its run, once, and to no other word. -/
theorem State.word_rangeWhole (s : State) (op : RangeOp) (w n x : Nat) :
    (s.rangeWhole op w n).word x = if w ≤ x ∧ x < w + n then rangeWord op (s.word x) ones else s.word x := by
  induction n generalizing s w with
  | zero => rw [if_neg (by omega), State.rangeWhole]
  | succ n ih =>
    rw [State.rangeWhole, ih]
    by_cases hx : x = w
    · subst hx
      rw [if_neg (by omega), State.word_setWord_self, if_pos (by omega)]
    · rw [State.word_setWord_ne _ _ hx]
      exact if_congr (by omega) rfl rfl

/-- R91, a range inside one word: the two masks meet there. -/
theorem State.word_applyRange_front_tail {s : State} {op : RangeOp} {lo hi : Nat} (hlt : lo < hi)
    (hft : lo / 64 = (hi - 1) / 64) :
    (s.applyRange op lo hi).word (lo / 64) = rangeWord op (s.word (lo / 64)) (frontMask lo &&& tailMask hi) :=
  State.word_applyRange_of_mask fun j hj => by
    rw [BitVec.getLsbD_and, getLsbD_frontMask _ hj, getLsbD_tailMask, Bool.and_eq_true, decide_eq_true_eq,
      decide_eq_true_eq]
    omega

section
variable {s : State} {op : RangeOp} {lo hi : Nat} (hft : lo / 64 < (hi - 1) / 64)
include hft

/-- R91, the first word of a range that goes on beyond it. -/
theorem State.word_applyRange_front :
    (s.applyRange op lo hi).word (lo / 64) = rangeWord op (s.word (lo / 64)) (frontMask lo) :=
  State.word_applyRange_of_mask fun j hj => by
    rw [getLsbD_frontMask _ hj, decide_eq_true_eq]
    omega

/-- R91, the last word of a range that begins before it. -/
theorem State.word_applyRange_tail :
    (s.applyRange op lo hi).word ((hi - 1) / 64) = rangeWord op (s.word ((hi - 1) / 64)) (tailMask hi) :=
  State.word_applyRange_of_mask fun j hj => by
    rw [getLsbD_tailMask, decide_eq_true_eq]
    omega

end

/-- R91, a word strictly between the first and the last lies in the range whole. -/
theorem State.word_applyRange_whole {s : State} {op : RangeOp} {lo hi w : Nat} (hf : lo / 64 < w)
    (ht : w < (hi - 1) / 64) : (s.applyRange op lo hi).word w = rangeWord op (s.word w) ones :=
  State.word_applyRange_of_mask fun j hj => by
    rw [getLsbD_ones, decide_eq_true_eq]
    omega

/-- R91 in one word: that word is written under the two masks together. -/
theorem State.word_applyRangeWords_of_eq {s : State} {op : RangeOp} {lo hi : Nat} (hlt : lo < hi)
    (hft : lo / 64 = (hi - 1) / 64) (w : Nat) :
    (s.applyRangeWords op lo hi).word w = (s.applyRange op lo hi).word w := by
  rw [State.applyRangeWords, if_pos hlt]
  dsimp only
  rw [if_pos hft]
  by_cases hw : w = lo / 64
  · subst hw
    rw [State.word_setWord_self, State.word_applyRange_front_tail hlt hft]
  · rw [State.word_setWord_ne _ _ hw, State.word_applyRange_of_outside (by omega)]

/-- R91 over several words: the first word, the whole words, and the last word are written apart. -/
theorem State.word_applyRangeWords_of_lt {s : State} {op : RangeOp} {lo hi : Nat} (hft : lo / 64 < (hi - 1) / 64)
    (w : Nat) : (s.applyRangeWords op lo hi).word w = (s.applyRange op lo hi).word w := by
  rw [State.applyRangeWords, if_pos (by omega)]
  dsimp only
  rw [if_neg hft.ne]
  by_cases ht : w = (hi - 1) / 64
  · subst ht
    rw [State.word_setWord_self, State.word_rangeWhole, if_neg (by omega), State.word_setWord_ne _ _ hft.ne',
      State.word_applyRange_tail hft]
  rw [State.word_setWord_ne _ _ ht, State.word_rangeWhole]
  by_cases hf : w = lo / 64
  · subst hf
    rw [if_neg (by omega), State.word_setWord_self, State.word_applyRange_front hft]
  rw [State.word_setWord_ne _ _ hf]
  by_cases hmid : lo / 64 < w ∧ w < (hi - 1) / 64
  · rw [if_pos (by omega), State.word_applyRange_whole hmid.1 hmid.2]
  · rw [if_neg (by omega), State.word_applyRange_of_outside (by omega)]

/-- R90 and R91 agree on every word. -/
theorem State.word_applyRangeWords (s : State) (op : RangeOp) (lo hi w : Nat) :
    (s.applyRangeWords op lo hi).word w = (s.applyRange op lo hi).word w := by
  by_cases hlt : lo < hi
  · by_cases hft : lo / 64 = (hi - 1) / 64
    · exact State.word_applyRangeWords_of_eq hlt hft w
    · exact State.word_applyRangeWords_of_lt (by omega) w
  · rw [State.applyRangeWords, if_neg hlt, State.applyRange, State.putBits_empty _ _ _ _ (Nat.le_of_not_lt hlt)]

/-- Settles O34: the algorithm and the per-bit operation leave the same words, hence the same bits. -/
theorem applyRangeAlgorithmAgrees : Obligations.ApplyRangeAlgorithmAgrees := by
  intro s op lo hi
  refine ⟨s.word_applyRangeWords op lo hi, fun x => ?_, fun w hw => ?_, fun hlt => ?_⟩
  · rw [State.bit, State.word_applyRangeWords, ← State.bit, State.bit_applyRange]
  · rw [State.word_applyRangeWords, State.word_applyRange_of_outside hw]
  · omega

end Sys2Proof.Machine
end

section
/-! The range commands (R93 to R96). -/

namespace Sys2Proof.Machine

/-- R93: the arguments of a range command are a range of its window. -/
theorem argumentCheck_rangeInstr (op : RangeOp) (d : Fin 16) (a e : Int) (s : State) :
    argumentCheck s (rangeInstr op d a e) = rangeCheck (s.window d).size a e := by cases op <;> rfl

theorem writeTarget_rangeInstr (op : RangeOp) (d : Fin 16) (a e : Int) :
    writeTarget (rangeInstr op d a e) = some d := by cases op <;> rfl

/-- The checks of R93 fail on a range that does not lie inside the window. -/
theorem rangeCheck_ne_none {sz a e : Int} (h : a < 0 ∨ e > sz ∨ a > e) : rangeCheck sz a e ≠ none := by
  rw [Ne, rangeCheck_eq_none]; omega

/-- Settles O33: the range passes `rangeCheck` and the gate, or the command fails; past both it is `applyRange`. -/
theorem rangeCommandsActOnRange : Obligations.RangeCommandsActOnRange := by
  intro op d a e s
  refine ⟨(encode_header _).1, (encode_header _).1, (encode_header _).1, by decide, by decide, by decide,
    fun hbad => ?arguments, fun h0 h1 h2 himm => ?gate, fun hinv h0 h1 h2 hmut => ?effect⟩
  case arguments =>
    exact exec_of_argumentCheck_ne_none (by rw [argumentCheck_rangeInstr]; exact rangeCheck_ne_none hbad)
  case gate =>
    exact exec_of_immutable_target (writeTarget_rangeInstr ..) himm
      ((argumentCheck_rangeInstr ..).trans ((rangeCheck_eq_none ..).2 ⟨h0, h1, h2⟩))
  case effect =>
    have hin := State.inv_range_le hinv ((rangeCheck_eq_none ..).2 ⟨h0, h1, h2⟩)
    refine ⟨_, (exec_rangeInstr ..).trans (rangeCommand_of_range h0 h1 h2 hmut hin), Descriptor.natCast_abs h0,
      Descriptor.natCast_abs (h0.trans h1), fun x hx0 hx1 => ?_, fun x hx => ?_, rfl, rfl, rfl, rfl, rfl⟩
    · rw [State.done_bit, State.bit_applyRange, if_pos ⟨hx0, hx1⟩]
    · rw [State.done_bit, State.bit_applyRange, if_neg hx]

end Sys2Proof.Machine
end

section
/-! The combinator on one bit and on a span (R100 to R112). -/

namespace Sys2Proof.Machine

/-! ## On a word -/

/-- R101: `Comb` combines the bits under its mask and keeps the others. -/
theorem getLsbD_combWord (k : Kind) (w m d : Word) {j : Nat} (hj : j < 64) :
    (combWord k w m d).getLsbD j = if m.getLsbD j then comb k (w.getLsbD j) (d.getLsbD j) else w.getLsbD j := by
  cases hm : m.getLsbD j with
  | false => cases k <;> simp [combWord, hm, hj, -BitVec.getLsbD_eq_getElem]
  | true => cases k <;> simp [combWord, comb, hm, -BitVec.getLsbD_eq_getElem]

/-- Settles O36: `comb` is its table, and the word formulas are that table bit by bit. -/
theorem combineWordIsPerBit : Obligations.CombineWordIsPerBit :=
  ⟨fun _ _ => ⟨rfl, rfl, rfl, rfl⟩, fun k w m d _ => getLsbD_combWord k w m d⟩

/-- R102: the bit `b` shifted to position `o`. -/
theorem getLsbD_wordOfBit_shiftLeft (b : Bool) (o : Nat) {j : Nat} (hj : j < 64) :
    (wordOfBit b <<< o).getLsbD j = (decide (j = o) && b) := by
  have hpos : ¬ j < o ∧ j - o = 0 ↔ j = o := by omega
  rw [BitVec.getLsbD_shiftLeft, getLsbD_wordOfBit, decide_eq_true hj, Bool.true_and, ← Bool.and_assoc, ← decide_not,
    ← Bool.decide_and, decide_eq_decide.2 hpos]

/-- R102, the mask `1 << o`. -/
theorem getLsbD_one_shiftLeft (o : Nat) {j : Nat} (hj : j < 64) : ((1 : Word) <<< o).getLsbD j = decide (j = o) :=
  (getLsbD_wordOfBit_shiftLeft true o hj).trans (Bool.and_true _)

/-- R102 in words of the memory: the per-bit write leaves `Comb` under the mask of the one bit. -/
theorem State.word_writeBit (s : State) (k : Kind) (a : Nat) (b : Bool) :
    (s.writeBit k a b).word (a / 64) =
      combWord k (s.word (a / 64)) ((1 : Word) <<< (a % 64)) (wordOfBit b <<< (a % 64)) :=
  word_ext _ _ fun j hj => by
    rw [State.getLsbD_word _ _ _ hj, State.bit_writeBit, getLsbD_combWord _ _ _ _ hj, State.getLsbD_word _ _ _ hj,
      getLsbD_one_shiftLeft _ hj, getLsbD_wordOfBit_shiftLeft _ _ hj]
    by_cases ho : j = a % 64
    · rw [if_pos (by omega), if_pos (decide_eq_true ho), decide_eq_true ho, Bool.true_and]
    · rw [if_neg (by omega), if_neg (by simpa using ho)]

/-! ## `WBIT.k` -/

theorem opcode_wbit (k : Kind) (d : Fin 16) (a : Int) (b : Bool) : (wbit k d a b).opcode = 0x40 + kindNumber k := by
  cases k <;> rfl

/-- R102: the argument of a `WBIT` is an index of its window. -/
theorem argumentCheck_wbit (k : Kind) (d : Fin 16) (a : Int) (b : Bool) (s : State) :
    argumentCheck s (wbit k d a b) = indexCheck (s.window d).size a := by cases k <;> rfl

theorem writeTarget_wbit (k : Kind) (d : Fin 16) (a : Int) (b : Bool) : writeTarget (wbit k d a b) = some d := by
  cases k <;> rfl

/-- R102: `WBIT` with an index inside its mutable window has its effect, in a state that meets the invariant. -/
theorem bitCommand_of_index {k : Kind} {d : Fin 16} {a : Int} {b : Bool} {s : State} (hinv : s.inv)
    (hc : indexCheck (s.window d).size a = none) (hmut : (s.window d).mutable = true) :
    bitCommand k d a b s = .next ((s.writeBit k ((s.window d).abs a) b).done 0) := by
  rw [bitCommand, hc, firstFailure_none, (gate_eq_none _).2 hmut, State.checked_none,
    State.within_of_le _ _ _ _ (.inr (State.inv_index_le hinv hc))]

/-- Settles O37: the index passes `indexCheck` and the gate, or the command fails; past both it is `writeBit`. -/
theorem wbitCombinesOneBit : Obligations.WbitCombinesOneBit := by
  intro k d a b s
  refine ⟨(encode_header _).1.trans (opcode_wbit k d a b), by decide, by decide, by decide, by decide, by decide,
    fun hbad => ?arguments, fun h0 h1 himm => ?gate, fun hinv h0 h1 hmut => ?effect⟩
  case arguments =>
    exact exec_of_argumentCheck_ne_none (by rw [argumentCheck_wbit]; exact indexCheck_ne_none hbad)
  case gate =>
    exact exec_of_immutable_target (writeTarget_wbit ..) himm
      ((argumentCheck_wbit ..).trans ((indexCheck_eq_none ..).2 ⟨h0, h1⟩))
  case effect =>
    refine ⟨_, (exec_wbit ..).trans (bitCommand_of_index hinv ((indexCheck_eq_none ..).2 ⟨h0, h1⟩) hmut),
      Descriptor.natCast_abs h0, ?_, fun x hx => ?_, s.word_writeBit .., rfl, rfl, rfl, rfl, rfl⟩
    · rw [State.done_bit, State.bit_writeBit, if_pos rfl]
    · rw [State.done_bit, State.bit_writeBit, if_neg (by omega)]

/-! ## `WBITS.k` -/

theorem opcode_wbits (k : Kind) (d : Fin 16) (a : Int) (len : Nat) (v : Word) :
    (wbits k d a len v).opcode = 0x44 + kindNumber k := by cases k <;> rfl

/-- R112: the arguments of a `WBITS` are a span of its window. -/
theorem argumentCheck_wbits (k : Kind) (d : Fin 16) (a : Int) (len : Nat) (v : Word) (s : State) :
    argumentCheck s (wbits k d a len v) = spanCheck (s.window d).size a len := by cases k <;> rfl

theorem writeTarget_wbits (k : Kind) (d : Fin 16) (a : Int) (len : Nat) (v : Word) :
    writeTarget (wbits k d a len v) = some d := by cases k <;> rfl

/-- R112: `WBITS` with a span that passes its checks has its effect, in a state that meets the invariant. -/
theorem spanCommand_of_span {k : Kind} {d : Fin 16} {a : Int} {len : Nat} {v : Word} {s : State} (hinv : s.inv)
    (hc : spanCheck (s.window d).size a len = none) (hmut : (s.window d).mutable = true) :
    spanCommand k d a len v s = .next ((s.writeSpan k ((s.window d).abs a) len v).done 0) := by
  rw [spanCommand, hc, firstFailure_none, (gate_eq_none _).2 hmut, State.checked_none,
    State.within_of_le _ _ _ _ (.inr (State.inv_span_le hinv hc))]

/-- Settles O38: the span passes `spanCheck` and the gate, or the command fails; past both it is `writeSpan`. -/
theorem wbitsCombinesSpan : Obligations.WbitsCombinesSpan := by
  intro k d a len v s
  refine ⟨(encode_header _).1.trans (opcode_wbits k d a len v), by decide, by decide, by decide, by decide,
    fun hbad => ?arguments, fun hlen h0 h1 himm => ?gate, fun hinv hlen h0 h1 hmut => ?effect⟩
  case arguments =>
    exact exec_of_argumentCheck_ne_none (by rw [argumentCheck_wbits]; exact spanCheck_ne_none hbad)
  case gate =>
    exact exec_of_immutable_target (writeTarget_wbits ..) himm
      ((argumentCheck_wbits ..).trans ((spanCheck_eq_none ..).2 ⟨hlen, h0, h1⟩))
  case effect =>
    refine ⟨_, (exec_wbits ..).trans (spanCommand_of_span hinv ((spanCheck_eq_none ..).2 ⟨hlen, h0, h1⟩) hmut),
      Descriptor.natCast_abs h0, fun j hj => ?_, fun x hx => ?_, rfl, rfl, rfl, rfl, rfl⟩
    · rw [State.done_bit, State.bit_writeSpan, if_pos (by omega), Nat.add_sub_cancel_left]
    · rw [State.done_bit, State.bit_writeSpan, if_neg hx]

end Sys2Proof.Machine
end

section
/-! The combinator with a constant (R120 to R128, R137, R138). -/

namespace Sys2Proof.Machine

/-! ## The table of R120 -/

/-- R120, the five cells with a range op. -/
theorem comb_of_rationalise_some : ∀ {k : Kind} {b : Bool} {op : RangeOp}, rationalise k b = some op →
    ∀ old, comb k old b = rangeBit op old
  | .set, false, _, rfl, _ => rfl
  | .set, true, _, rfl, _ => rfl
  | .and, false, _, rfl, old => Bool.and_false old
  | .or, true, _, rfl, old => Bool.or_true old
  | .xor, true, _, rfl, old => Bool.xor_true old

/-- R120, the three cells that say none. -/
theorem comb_of_rationalise_none : ∀ {k : Kind} {b : Bool}, rationalise k b = none → ∀ old, comb k old b = old
  | .and, true, _, old => Bool.and_true old
  | .or, false, _, old => Bool.or_false old
  | .xor, false, _, old => Bool.xor_false old

/-! ## The combine of a range, by the range op of the table or by none -/

theorem constRange_of_some {k : Kind} {b : Bool} {op : RangeOp} (h : rationalise k b = some op) (lo hi : Nat) (s : State) :
    constRange k b lo hi s = s.within lo hi (.next ((s.applyRange op lo hi).done 0)) := by
  rw [constRange, h]

theorem constRange_of_none {k : Kind} {b : Bool} (h : rationalise k b = none) (lo hi : Nat) (s : State) :
    constRange k b lo hi s = .next (s.done 0) := by
  rw [constRange, h]

/-- A constant combine of a range inside `WM` combines every bit of the range with `b` and changes nothing else. -/
theorem constRange_completes {k : Kind} {b : Bool} {lo hi : Nat} {s : State} (hin : hi ≤ s.nbits) :
    Completes (constRange k b lo hi s) fun t =>
      (∀ x, lo ≤ x → x < hi → t.bit x = comb k (s.bit x) b) ∧ s.sameBitsOutside t lo hi ∧
        t.resp = ⟨.ok, 0⟩ ∧ s.sameDescriptors t := by
  cases hrat : rationalise k b with
  | none =>
    exact ⟨_, constRange_of_none hrat lo hi s, fun _ _ _ => (comb_of_rationalise_none hrat _).symm, fun _ _ => rfl,
      rfl, rfl, rfl, rfl, rfl⟩
  | some op =>
    refine ⟨_, (constRange_of_some hrat lo hi s).trans (State.within_of_le _ _ _ _ (.inr hin)),
      fun x hx0 hx1 => ?_, fun x hx => ?_, rfl, rfl, rfl, rfl, rfl⟩
    · rw [State.done_bit, State.bit_applyRange, if_pos ⟨hx0, hx1⟩, comb_of_rationalise_some hrat]
    · rw [State.done_bit, State.bit_applyRange, if_neg hx]

/-! ## `WFILL.k` -/

theorem opcode_wfill (k : Kind) (d : Fin 16) (b : Bool) : (wfill k d b).opcode = 0x48 + kindNumber k := by
  cases k <;> rfl

/-- R137: no argument of a `WFILL` is checked. -/
theorem argumentCheck_wfill (k : Kind) (d : Fin 16) (b : Bool) (s : State) : argumentCheck s (wfill k d b) = none := by
  cases k <;> rfl

theorem writeTarget_wfill (k : Kind) (d : Fin 16) (b : Bool) : writeTarget (wfill k d b) = some d := by
  cases k <;> rfl

/-- R137: `WFILL` past the gate combines the range of its window. -/
theorem exec_wfill_of_mutable {k : Kind} {d : Fin 16} {b : Bool} {s : State} (hmut : (s.window d).mutable = true) :
    exec (wfill k d b) s = constRange k b (s.window d).start (s.window d).finish s := by
  rw [exec_wfill, fillCommand, (gate_eq_none _).2 hmut, State.checked_none]

/-- Settles O43: past the gate `WFILL` combines the whole window, which lies inside `WM`. -/
theorem wfillCombinesWindow : Obligations.WfillCombinesWindow := by
  intro k d b s
  refine ⟨(encode_header _).1.trans (opcode_wfill k d b), by decide, by decide, by decide, by decide, by decide,
    by decide, fun himm => ?gate, fun hinv hmut => ?effect⟩
  case gate => exact exec_of_immutable_target (writeTarget_wfill ..) himm (argumentCheck_wfill ..)
  case effect =>
    rw [exec_wfill_of_mutable hmut]
    exact constRange_completes (s.inv_finish_le hinv d)

/-! ## `WRANGE.k` -/

theorem opcode_wrange (k : Kind) (d : Fin 16) (a e : Int) (b : Bool) :
    (wrange k d a e b).opcode = 0x4C + kindNumber k := by cases k <;> rfl

/-- R138: the arguments of a `WRANGE` are a range of its window. -/
theorem argumentCheck_wrange (k : Kind) (d : Fin 16) (a e : Int) (b : Bool) (s : State) :
    argumentCheck s (wrange k d a e b) = rangeCheck (s.window d).size a e := by cases k <;> rfl

theorem writeTarget_wrange (k : Kind) (d : Fin 16) (a e : Int) (b : Bool) :
    writeTarget (wrange k d a e b) = some d := by cases k <;> rfl

section
variable {k : Kind} {d : Fin 16} {a e : Int} {b : Bool} {s : State}

/-- R138: `WRANGE` on what is no range of its window raises InvalidArgument. -/
theorem exec_wrange_of_bad_range (hc : rangeCheck (s.window d).size a e ≠ none) :
    exec (wrange k d a e b) s = .next (s.raise .invalidArgument) :=
  exec_of_argumentCheck_ne_none (by rwa [argumentCheck_wrange])

/-- R138: `WRANGE` past its checks combines the range its arguments name. -/
theorem exec_wrange_of_mutable (hc : rangeCheck (s.window d).size a e = none)
    (hmut : (s.window d).mutable = true) :
    exec (wrange k d a e b) s = constRange k b ((s.window d).abs a) ((s.window d).abs e) s := by
  rw [exec_wrange, constRangeCommand, hc, firstFailure_none, (gate_eq_none _).2 hmut, State.checked_none]

end

/-- Settles O44: the range passes `rangeCheck` and the gate, or the command fails; past both it is combined with `b`. -/
theorem wrangeCombinesRange : Obligations.WrangeCombinesRange := by
  intro k d a e b s
  refine ⟨(encode_header _).1.trans (opcode_wrange k d a e b), by decide, by decide, by decide, by decide, by decide,
    fun hbad => exec_wrange_of_bad_range (rangeCheck_ne_none hbad), fun h0 h1 h2 himm => ?gate,
    fun hinv h0 h1 h2 hmut => ?effect⟩
  case gate =>
    exact exec_of_immutable_target (writeTarget_wrange ..) himm
      ((argumentCheck_wrange ..).trans ((rangeCheck_eq_none ..).2 ⟨h0, h1, h2⟩))
  case effect =>
    have hc := (rangeCheck_eq_none (s.window d).size a e).2 ⟨h0, h1, h2⟩
    obtain ⟨t, ht, heffect⟩ := constRange_completes (k := k) (b := b) (lo := (s.window d).abs a)
      (State.inv_range_le hinv hc)
    exact ⟨t, (exec_wrange_of_mutable hc hmut).trans ht, Descriptor.natCast_abs h0,
      Descriptor.natCast_abs (h0.trans h1), heffect⟩

/-! ## `WRANGE.k` as other commands (R138) -/

/-- R138: where the table has a range op, `WRANGE.k` is the command of that op. -/
theorem constRangeCommand_of_rationalise_some {k : Kind} {b : Bool} {op : RangeOp} (h : rationalise k b = some op)
    (d : Fin 16) (a e : Int) (s : State) : constRangeCommand k d a e b s = rangeCommand op d a e s := by
  rw [constRangeCommand, constRange_of_some h, rangeCommand]

/-- R138: over the whole of a legal window `WRANGE.k` is `WFILL.k`. -/
theorem constRangeCommand_whole {k : Kind} {d : Fin 16} {b : Bool} {s : State}
    (hle : (s.window d).start ≤ (s.window d).finish) :
    constRangeCommand k d 0 (s.window d).size b s = fillCommand k d b s := by
  have hsize : 0 ≤ (s.window d).size := Int.sub_nonneg_of_le (Int.ofNat_le.2 hle)
  rw [constRangeCommand, (rangeCheck_eq_none ..).2 ⟨le_rfl, hsize, le_rfl⟩, firstFailure_none, Descriptor.abs_zero,
    Descriptor.abs_size hle, fillCommand]

/-- Settles O45: the whole window passes its check, and each constant has the range op of the table. -/
theorem wrangeEquivalences : Obligations.WrangeEquivalences := by
  refine ⟨fun k d b s hinv => ?whole, fun d a e s => ⟨?_, ?_, ?_, ?_, ?_⟩⟩
  case whole => rw [exec_wrange, exec_wfill, constRangeCommand_whole (s.inv_start_le hinv d)]
  all_goals exact constRangeCommand_of_rationalise_some rfl d a e s

/-! ## Where the table says none -/

/-- A gate alone: what follows does not fail, so it answers by the mutability of the window. -/
theorem State.checked_gate_next (s t : State) (w : Descriptor) :
    s.checked (gate w) (.next t) = .next (if w.mutable then t else s.raise .invalidState) := by
  unfold gate
  split <;> rfl

/-- Settles O42: `comb` against the table, and where the table says none the effect is empty and the checks remain. -/
theorem rationalisationIsCombine : Obligations.RationalisationIsCombine := by
  refine ⟨by decide, fun k b old => ⟨fun op h => comb_of_rationalise_some h old, fun h => comb_of_rationalise_none h old⟩,
    fun k d b s hnone => ⟨?wfill, fun a e => ?wrange⟩⟩
  case wfill => rw [exec_wfill, fillCommand, constRange_of_none hnone, State.checked_gate_next]
  case wrange =>
    split
    case isTrue hargs =>
      rw [exec_wrange, constRangeCommand, (rangeCheck_eq_none ..).2 hargs, firstFailure_none, constRange_of_none hnone,
        State.checked_gate_next]
    case isFalse hargs => exact exec_wrange_of_bad_range (mt (rangeCheck_eq_none ..).1 hargs)

end Sys2Proof.Machine
end

section
/-! The combinator with a store (R129 to R135). -/

namespace Sys2Proof.Machine

theorem opcode_wstore (k : Kind) (d r : Fin 16) (a : Int) : (wstore k d r a).opcode = 0x50 + kindNumber k := by
  cases k <;> rfl

/-- R129: the argument of a `WSTORE` is a position at which the source's window fits the destination's. -/
theorem argumentCheck_wstore (k : Kind) (d r : Fin 16) (a : Int) (s : State) :
    argumentCheck s (wstore k d r a) = storeCheck (s.window d).size (s.window r).size a := by cases k <;> rfl

/-- R129: only the destination is gated. -/
theorem writeTarget_wstore (k : Kind) (d r : Fin 16) (a : Int) : writeTarget (wstore k d r a) = some d := by
  cases k <;> rfl

/-- The checks of R129 fail on a source that does not fit at the position. -/
theorem storeCheck_ne_none {sz n a : Int} (h : a < 0 ∨ a + n > sz) : storeCheck sz n a ≠ none := by
  rw [Ne, storeCheck_eq_none]; omega

/-- R129: `WSTORE` past its checks has its effect, in a state that meets the invariant. -/
theorem storeCommand_of_store {k : Kind} {d r : Fin 16} {a : Int} {s : State} (hinv : s.inv)
    (hc : storeCheck (s.window d).size (s.window r).size a = none) (hmut : (s.window d).mutable = true) :
    storeCommand k d r a s =
      .next ((s.transfer k (s.window r).start ((s.window d).abs a) (s.window r).count).done 0) := by
  rw [storeCommand, hc, firstFailure_none, (gate_eq_none _).2 hmut, State.checked_none,
    State.within_of_le _ _ _ _ (.inr (State.inv_source_le hinv r)),
    State.within_of_le _ _ _ _ (.inr (State.inv_store_le hinv hc))]

/-- Settles O46: the position passes `storeCheck` and the gate, or the command fails; past both it is `transfer`, whose
source bits are those of the state before the command. -/
theorem wstoreCombinesWindow : Obligations.WstoreCombinesWindow := by
  intro k d r a s
  refine ⟨(encode_header _).1.trans (opcode_wstore k d r a), by decide, by decide, by decide, by decide,
    fun hbad => ?arguments, fun h0 h1 himm => ?gate, fun hinv h0 h1 hmut => ?effect⟩
  case arguments =>
    exact exec_of_argumentCheck_ne_none (by rw [argumentCheck_wstore]; exact storeCheck_ne_none hbad)
  case gate =>
    exact exec_of_immutable_target (writeTarget_wstore ..) himm
      ((argumentCheck_wstore ..).trans ((storeCheck_eq_none ..).2 ⟨h0, h1⟩))
  case effect =>
    refine ⟨_, (exec_wstore ..).trans (storeCommand_of_store hinv ((storeCheck_eq_none ..).2 ⟨h0, h1⟩) hmut),
      Descriptor.natCast_abs h0, fun j hj => ?_, fun x hx => ?_, rfl, rfl, rfl, rfl, rfl⟩
    · have hcount : j < (s.window r).count := Nat.lt_sub_iff_add_lt'.2 hj
      rw [State.done_bit, State.bit_transfer, if_pos (by omega), Nat.add_sub_cancel_left]
    · rw [State.done_bit, State.bit_transfer, Descriptor.count, if_neg hx]

end Sys2Proof.Machine
end

section
/-! Errors: what a command that raises one leaves behind, which check raises it, and the error no command raises
(R141 to R145). -/

namespace Sys2Proof.Machine

/-- R140: a command that has its effect ends with OK. -/
theorem Effect.resp_code {i : Instr} {s t : State} (h : Effect i s t) : t.resp.code = .ok := by
  cases h with
  | respond _ _ _ _ ht | describe _ _ _ _ _ _ ht | store _ _ _ _ _ _ ht | write _ _ _ _ _ _ _ _ _ _ ht => rw [ht]; rfl

/-- R140, R141: a command that answers ends with OK or with one of the two errors it can raise. -/
theorem exec_ok_or_raise {i : Instr} {s t : State} (h : exec i s = .next t) :
    t.resp.code = .ok ∨ t = s.raise .invalidArgument ∨ t = s.raise .invalidState := by
  rcases exec_outcomes i s t h with ⟨-, harg⟩ | ⟨-, -, hgate⟩ | ⟨-, heffect⟩
  · exact .inr (.inl harg)
  · exact .inr (.inr hgate)
  · exact .inl heffect.resp_code

/-- R141: what the engine does after an error is what it would have done before it. -/
theorem exec_raise (j : Instr) (s : State) (c : Code) : exec j (s.raise c) = exec j s :=
  noCommandReadsResponse j s ⟨c, 0⟩

/-- Settles O18: an error is one of the two raises, which write `RESP` only, and no command reads `RESP`. -/
theorem errorsArePrecise : Obligations.ErrorsArePrecise := by
  intro i s t h herr
  rcases exec_ok_or_raise h with hok | rfl | rfl
  · exact absurd hok herr
  · exact ⟨rfl, fun j => exec_raise j s _⟩
  · exact ⟨rfl, fun j => exec_raise j s _⟩

/-- R55: a packet with a reserved bit set or an opcode of no command does not decode. -/
theorem exists_decode_error {p : Packet} (h : rsvOf p ≠ 0 ∨ opcodeOf p ∉ opcodes) : ∃ e, decode p = .error e := by
  by_cases hrsv : rsvOf p = 0
  · exact ⟨_, decode_of_opcode_not_mem hrsv (h.resolve_left (absurd hrsv))⟩
  · exact ⟨_, decode_of_rsv_ne hrsv⟩

/-- R140: a command none of whose checks fails ends with OK, in a state that meets the invariant. -/
theorem exec_completes_ok {i : Instr} {s : State} (hinv : s.inv) (harg : argumentCheck s i = none)
    (hmut : ∀ d, writeTarget i = some d → (s.window d).mutable = true) :
    Completes (exec i s) fun t => t.resp.code = .ok := by
  obtain ⟨t, ht⟩ := exec_answers hinv i
  refine ⟨t, ht, ?_⟩
  rcases exec_outcomes i s t ht with ⟨hfail, -⟩ | ⟨-, ⟨d, hd, himm⟩, -⟩ | ⟨-, heffect⟩
  · exact absurd (harg.symm.trans hfail) nofun
  · exact absurd (himm.symm.trans (hmut d hd)) nofun
  · exact heffect.resp_code

/-- Settles O20: decode, then the argument check, then the gate; past all three the command has its effect. -/
theorem checksAndTheirOrder : Obligations.ChecksAndTheirOrder := by
  refine ⟨fun s p rest hport hbad => ?decode, fun i s => ⟨fun c hc => ?arguments, fun d harg hd himm => ?gate, ?effect⟩⟩
  case decode =>
    obtain ⟨e, he⟩ := exists_decode_error hbad
    exact step_of_decode_error hport he
  case arguments =>
    exact ⟨argumentCheck_some hc, exec_of_argumentCheck_ne_none (hc ▸ Option.some_ne_none c)⟩
  case gate => exact exec_of_immutable_target hd himm harg
  case effect => exact exec_completes_ok

/-- Settles O21: neither OK nor the two errors a command can raise is EndOfStream, and a source that does not fit fails
the argument check. -/
theorem endOfStreamNeverProduced : Obligations.EndOfStreamNeverProduced := by
  refine ⟨fun i s t h => ?code, fun k d r a s hbad => ?store⟩
  case code =>
    rcases exec_ok_or_raise h with hok | rfl | rfl
    · exact hok ▸ nofun
    · exact nofun
    · exact nofun
  case store =>
    exact exec_of_argumentCheck_ne_none (by rw [argumentCheck_wstore]; exact storeCheck_ne_none (.inr hbad))

end Sys2Proof.Machine
end

section
/-! The invariant along a run (R16, R140, R143): what a step leaves meets it again. -/

namespace Sys2Proof.Machine

/-- R140, R141: a command that answers raised an error, never EndOfStream, or had its effect. -/
theorem exec_raise_or_effect {i : Instr} {s t : State} (h : exec i s = .next t) :
    (∃ c, c ≠ .endOfStream ∧ t = s.raise c) ∨ Effect i s t := by
  rcases exec_outcomes i s t h with ⟨-, ht⟩ | ⟨-, -, ht⟩ | ⟨-, heffect⟩
  · exact .inl ⟨.invalidArgument, nofun, ht⟩
  · exact .inl ⟨.invalidState, nofun, ht⟩
  · exact .inr heffect

/-! ## The updates a step makes keep the invariant -/

/-- An error response is legal, since its value is 0. -/
theorem Resp.legal_error {c : Code} (h : c ≠ .endOfStream) : (Resp.mk c 0).legal := ⟨h, fun _ => rfl⟩

section
variable {s : State} (hinv : s.inv)
include hinv

theorem State.inv_reply {c : Code} {v : Word} (hresp : (Resp.mk c v).legal) : (s.reply c v).inv := by
  obtain ⟨hsize, hmem, hdesc, -⟩ := hinv
  exact ⟨hsize, hmem, hdesc, hresp⟩

theorem State.inv_done (v : Word) : (s.done v).inv := State.inv_reply hinv (Resp.legal_ok v)

theorem State.inv_raise {c : Code} (h : c ≠ .endOfStream) : (s.raise c).inv :=
  State.inv_reply hinv (Resp.legal_error h)

theorem State.inv_setWindow {d : Fin 16} {w : Descriptor} (hlegal : w.legal s.nwords) : (s.setWindow d w).inv := by
  obtain ⟨hsize, hmem, hdesc, hresp⟩ := hinv
  refine ⟨hsize, hmem, fun x => ?_, hresp⟩
  by_cases hx : x = d
  · rw [hx, State.setWindow_window_self]
    exact hlegal
  · rw [State.setWindow_window_ne _ _ _ _ hx]
    exact hdesc x

theorem State.inv_setWord {w : Nat} {v : Word} (hw : w < s.nwords) : (s.setWord w v).inv := by
  obtain ⟨hsize, hmem, hdesc, hresp⟩ := hinv
  exact ⟨hsize, s.setWord_wf w v hmem hw, hdesc, hresp⟩

theorem State.inv_putBits {lo hi : Nat} {g : Nat → Bool} (hin : hi ≤ lo ∨ hi ≤ s.nbits) : (s.putBits lo hi g).inv := by
  obtain ⟨hsize, hmem, hdesc, hresp⟩ := hinv
  exact ⟨hsize, s.putBits_wf lo hi g hmem hin, hdesc, hresp⟩

/-- R19: the reset values meet the invariant at the size the engine has. -/
theorem State.inv_afterReset : s.afterReset.inv := by
  obtain ⟨⟨hmin, hmax⟩, -⟩ := hinv
  exact State.inv_resetOf hmin hmax

/-! ## A command, then a step -/

theorem Effect.keeps_inv {i : Instr} {t : State} (heffect : Effect i s t) : t.inv := by
  cases heffect with
  | respond v _ _ _ ht => exact ht ▸ State.inv_done hinv v
  | describe d w _ _ _ hlegal ht => exact ht ▸ State.inv_done (State.inv_setWindow hinv (hlegal hinv)) 0
  | store a v _ _ _ ha ht => exact ht ▸ State.inv_done (State.inv_setWord hinv (by omega)) 0
  | write d lo hi g _ _ _ _ hin _ ht => exact ht ▸ State.inv_done (State.inv_putBits hinv hin) 0

/-- A command keeps the invariant: an error writes a legal response, and every effect is one of the updates above. -/
theorem exec_keeps_inv {i : Instr} {t : State} (h : exec i s = .next t) : t.inv := by
  obtain ⟨c, hc, rfl⟩ | heffect := exec_raise_or_effect h
  · exact State.inv_raise hinv hc
  · exact Effect.keeps_inv hinv heffect

end

/-- Settles O12: a reset restores the reset values, a command keeps the invariant, an undecodable packet responds with
an error; the invariant does not speak of the port. -/
theorem stepKeepsInvariant : Obligations.StepKeepsInvariant := by
  intro s t hinv h
  cases hport : s.port with
  | nil =>
    rw [step_of_idle hport] at h
    exact eq_of_next h ▸ hinv
  | cons event rest =>
    have hinv' : { s with port := rest }.inv := hinv
    cases event with
    | reset =>
      rw [step_of_reset hport] at h
      exact eq_of_next h ▸ State.inv_afterReset hinv'
    | packet p =>
      cases hp : decode p with
      | ok i => exact exec_keeps_inv hinv' ((step_of_decode_ok hport hp).symm.trans h)
      | error e =>
        rw [step_of_decode_error hport hp] at h
        exact eq_of_next h ▸ State.inv_raise hinv' nofun

end Sys2Proof.Machine
end

section
/-! Which commands change the descriptors, and which change `WM`. -/

namespace Sys2Proof.Machine

/-- Settles O14: of everything a command can do, only the effect of `DSET`, `DVIEW`, `DIMM` writes a descriptor, and it
writes the one they name. -/
theorem descriptorsChangeOnlyByTheirCommands : Obligations.DescriptorsChangeOnlyByTheirCommands := by
  intro i s t h
  obtain ⟨c, -, rfl⟩ | heffect := exec_raise_or_effect h
  · exact ⟨⟨rfl, rfl, rfl⟩, fun _ => rfl, fun _ _ _ _ => rfl⟩
  cases heffect with
  | respond _ _ _ _ ht | store _ _ _ _ _ _ ht | write _ _ _ _ _ _ _ _ _ _ ht =>
    subst ht
    exact ⟨⟨rfl, rfl, rfl⟩, fun _ => rfl, fun _ _ _ _ => rfl⟩
  | describe d w hd _ _ _ ht =>
    subst ht
    refine ⟨⟨rfl, rfl, rfl⟩, fun hnone => absurd (hd.symm.trans hnone) nofun, fun d' hd' x hx => ?_⟩
    obtain rfl : d = d' := Option.some.inj (hd.symm.trans hd')
    exact (s.setWindow_done_frame d w).1 x hx

/-- Settles O15: of everything a command can do, only a write-class effect and that of `MWR` write `WM`, and `MWR` writes
the word it names. -/
theorem memoryChangesOnlyByWriteCommands : Obligations.MemoryChangesOnlyByWriteCommands := by
  intro i s t h
  obtain ⟨c, -, rfl⟩ | heffect := exec_raise_or_effect h
  · exact ⟨fun _ _ => rfl, fun _ _ _ _ => rfl⟩
  cases heffect with
  | respond _ _ _ _ ht | describe _ _ _ _ _ _ ht =>
    subst ht
    exact ⟨fun _ _ => rfl, fun _ _ _ _ => rfl⟩
  | store a v _ _ hm _ ht =>
    subst ht
    refine ⟨fun _ hnone => absurd (hm.symm.trans hnone) nofun, fun a' ha' w hw => ?_⟩
    obtain rfl : a = a' := Option.some.inj (hm.symm.trans ha')
    exact s.word_setWord_ne v hw
  | write d lo hi g _ hw hm =>
    exact ⟨fun hnone => absurd (hw.symm.trans hnone) nofun, fun a ha => absurd (hm.symm.trans ha) nofun⟩

end Sys2Proof.Machine
end

section
/-! The range operation applied twice (R90). -/

namespace Sys2Proof.Machine

/-- R90 twice over one range is `rangeBit` twice on each bit of it. -/
theorem State.bit_applyRange_twice (s : State) (op : RangeOp) (lo hi x : Nat) :
    ((s.applyRange op lo hi).applyRange op lo hi).bit x =
      if lo ≤ x ∧ x < hi then rangeBit op (rangeBit op (s.bit x)) else s.bit x := by
  rw [State.bit_applyRange, State.bit_applyRange]
  split
  · rfl
  · rfl

/-- Where `rangeBit` is idempotent, so is the range operation. -/
theorem State.word_applyRange_idem {op : RangeOp} (hop : ∀ b, rangeBit op (rangeBit op b) = rangeBit op b) (s : State)
    (lo hi w : Nat) : ((s.applyRange op lo hi).applyRange op lo hi).word w = (s.applyRange op lo hi).word w :=
  State.word_eq_of_bit_eq _ _ (fun x => by rw [State.bit_applyRange_twice, hop, State.bit_applyRange]) w

/-- Where `rangeBit` is its own inverse, so is the range operation. -/
theorem State.word_applyRange_involutive {op : RangeOp} (hop : ∀ b, rangeBit op (rangeBit op b) = b) (s : State)
    (lo hi w : Nat) : ((s.applyRange op lo hi).applyRange op lo hi).word w = s.word w :=
  State.word_eq_of_bit_eq _ _ (fun x => by rw [State.bit_applyRange_twice, hop, ite_self]) w

/-- Settles O35: SET and CLEAR are constant on a bit, XOR complements it. -/
theorem rangeOpsIdempotence : Obligations.RangeOpsIdempotence := fun s lo hi w =>
  ⟨s.word_applyRange_idem (fun _ => rfl) lo hi w, s.word_applyRange_idem (fun _ => rfl) lo hi w,
    s.word_applyRange_involutive (op := .xor) Bool.not_not lo hi w⟩

end Sys2Proof.Machine
end

section
/-! The span write, word by word (R103). -/

namespace Sys2Proof.Machine

/-! ## The per-bit write, read by words -/

/-- R103 on one word: `Comb` under a mask that has exactly the word's bits of the span, with data that has the bits of
the value in their places. -/
theorem State.word_writeSpan_of_mask {s : State} {k : Kind} {a len w : Nat} {v m d : Word}
    (hm : ∀ j < 64, m.getLsbD j = true ↔ a ≤ 64 * w + j ∧ 64 * w + j < a + len)
    (hd : ∀ j < 64, m.getLsbD j = true → d.getLsbD j = v.getLsbD (64 * w + j - a)) :
    (s.writeSpan k a len v).word w = combWord k (s.word w) m d := by
  refine word_ext _ _ fun j hj => ?_
  rw [State.getLsbD_word _ _ _ hj, State.bit_writeSpan, getLsbD_combWord _ _ _ _ hj, State.getLsbD_word _ _ _ hj]
  by_cases hmask : m.getLsbD j = true
  · rw [if_pos ((hm j hj).1 hmask), if_pos hmask, hd j hj hmask]
  · rw [if_neg (mt (hm j hj).2 hmask), if_neg hmask]

/-- R103 on a word that has no bit of the span. -/
theorem State.word_writeSpan_of_outside {s : State} {k : Kind} {a len w : Nat} {v : Word}
    (h : 64 * w + 64 ≤ a ∨ a + len ≤ 64 * w) : (s.writeSpan k a len v).word w = s.word w :=
  word_ext _ _ fun j hj => by
    rw [State.getLsbD_word _ _ _ hj, State.bit_writeSpan, if_neg (by omega), State.getLsbD_word _ _ _ hj]

/-! ## The masks and the data of the algorithm -/

/-- R103: the value masked to the length, bit by bit. -/
theorem getLsbD_and_maskOf (v : Word) (len : Nat) {j : Nat} (hj : j < 64) :
    (v &&& maskOf len).getLsbD j = (v.getLsbD j && decide (j < len)) := by
  rw [BitVec.getLsbD_and, getLsbD_maskOf, decide_eq_true hj, Bool.true_and]

/-- A word shifted up by `o`: bit `j` is the word's bit `j - o`, and below `o` there is none. -/
theorem getLsbD_shiftLeft_eq (x : Word) (o : Nat) {j : Nat} (hj : j < 64) :
    (x <<< o).getLsbD j = (decide (o ≤ j) && x.getLsbD (j - o)) := by
  rw [BitVec.getLsbD_shiftLeft, decide_eq_true hj, Bool.true_and, ← decide_not, decide_eq_decide.2 Nat.not_lt]

/-! ## The algorithm -/

section
variable {s : State} {k : Kind} {a len : Nat} {v : Word}

/-- R103, a span inside one word. -/
theorem State.word_writeSpan_single (hone : a % 64 + len ≤ 64) :
    (s.writeSpan k a len v).word (a / 64) =
      combWord k (s.word (a / 64)) (maskOf len <<< (a % 64)) ((v &&& maskOf len) <<< (a % 64)) := by
  have hmask : ∀ j < 64, (maskOf len <<< (a % 64)).getLsbD j = true ↔ a % 64 ≤ j ∧ j - a % 64 < len := fun j hj => by
    have hbit : j - a % 64 < 64 := (Nat.sub_le ..).trans_lt hj
    rw [getLsbD_shiftLeft_eq _ _ hj, getLsbD_maskOf, decide_eq_true hbit, Bool.true_and, Bool.and_eq_true,
      decide_eq_true_eq, decide_eq_true_eq]
  refine State.word_writeSpan_of_mask (fun j hj => (hmask j hj).trans (by omega)) fun j hj hm => ?_
  obtain ⟨hlow, hlen⟩ := (hmask j hj).1 hm
  have hoff : 64 * (a / 64) + j - a = j - a % 64 := by omega
  rw [getLsbD_shiftLeft_eq _ _ hj, getLsbD_and_maskOf _ _ (by omega), decide_eq_true hlow, decide_eq_true hlen,
    Bool.true_and, Bool.and_true, hoff]

/-- R103, the first word of a span that goes on beyond it. -/
theorem State.word_writeSpan_low (htwo : 64 < a % 64 + len) :
    (s.writeSpan k a len v).word (a / 64) =
      combWord k (s.word (a / 64)) (ones <<< (a % 64)) ((v &&& maskOf len) <<< (a % 64)) := by
  have hmask : ∀ j < 64, (ones <<< (a % 64)).getLsbD j = true ↔ a % 64 ≤ j := fun j hj => by
    rw [← frontMask, getLsbD_frontMask _ hj, decide_eq_true_eq]
  refine State.word_writeSpan_of_mask (fun j hj => (hmask j hj).trans (by omega)) fun j hj hm => ?_
  have hlow := (hmask j hj).1 hm
  have hoff : 64 * (a / 64) + j - a = j - a % 64 := by omega
  rw [getLsbD_shiftLeft_eq _ _ hj, getLsbD_and_maskOf _ _ (by omega), decide_eq_true hlow, decide_eq_true (by omega),
    Bool.true_and, Bool.and_true, hoff]

/-- R103, the second word of a span that begins in the word before it. -/
theorem State.word_writeSpan_high (hlen : len ≤ 64) (htwo : 64 < a % 64 + len) :
    (s.writeSpan k a len v).word (a / 64 + 1) =
      combWord k (s.word (a / 64 + 1)) (maskOf (len - (64 - a % 64))) ((v &&& maskOf len) >>> (64 - a % 64)) := by
  have hmask : ∀ j < 64, (maskOf (len - (64 - a % 64))).getLsbD j = true ↔ j < len - (64 - a % 64) := fun j hj => by
    rw [getLsbD_maskOf, decide_eq_true hj, Bool.true_and, decide_eq_true_eq]
  refine State.word_writeSpan_of_mask (fun j hj => (hmask j hj).trans (by omega)) fun j hj hm => ?_
  have hhigh := (hmask j hj).1 hm
  have hoff : 64 * (a / 64 + 1) + j - a = 64 - a % 64 + j := by omega
  rw [BitVec.getLsbD_ushiftRight, getLsbD_and_maskOf _ _ (by omega), decide_eq_true (by omega), Bool.and_true, hoff]

/-- R103 in one word. -/
theorem State.word_writeSpanWords_of_le (hpos : len ≠ 0) (hone : a % 64 + len ≤ 64) (w : Nat) :
    (s.writeSpanWords k a len v).word w = (s.writeSpan k a len v).word w := by
  rw [State.writeSpanWords]
  dsimp only
  rw [if_neg hpos, if_pos hone]
  by_cases hw : w = a / 64
  · subst hw
    rw [State.word_setWord_self, State.word_writeSpan_single hone]
  · rw [State.word_setWord_ne _ _ hw, State.word_writeSpan_of_outside (by omega)]

/-- R103 in two words, which are written apart. -/
theorem State.word_writeSpanWords_of_lt (hlen : len ≤ 64) (htwo : 64 < a % 64 + len) (w : Nat) :
    (s.writeSpanWords k a len v).word w = (s.writeSpan k a len v).word w := by
  rw [State.writeSpanWords]
  dsimp only
  rw [if_neg (by omega), if_neg (by omega), State.word_setWord_ne _ _ (Nat.succ_ne_self _)]
  by_cases hhigh : w = a / 64 + 1
  · subst hhigh
    rw [State.word_setWord_self, State.word_writeSpan_high hlen htwo]
  rw [State.word_setWord_ne _ _ hhigh]
  by_cases hlow : w = a / 64
  · subst hlow
    rw [State.word_setWord_self, State.word_writeSpan_low htwo]
  · rw [State.word_setWord_ne _ _ hlow, State.word_writeSpan_of_outside (by omega)]

/-- R103: the algorithm and the per-bit write agree on every word. -/
theorem State.word_writeSpanWords (hlen : len ≤ 64) (w : Nat) :
    (s.writeSpanWords k a len v).word w = (s.writeSpan k a len v).word w := by
  by_cases hone : a % 64 + len ≤ 64
  · by_cases hpos : len = 0
    · rw [State.writeSpanWords, if_pos hpos, State.writeSpan, State.putBits_empty _ _ _ _ (by omega)]
    · exact State.word_writeSpanWords_of_le hpos hone w
  · exact State.word_writeSpanWords_of_lt hlen (Nat.lt_of_not_le hone) w

end

/-- Settles O39: the algorithm and the per-bit write leave the same words, hence the same bits. -/
theorem writeSpanAlgorithmAgrees : Obligations.WriteSpanAlgorithmAgrees := by
  intro s k a len v hlen
  refine ⟨State.word_writeSpanWords hlen, fun x => ?_, fun htwo => ?_⟩
  · rw [State.bit, State.word_writeSpanWords hlen, ← State.bit, State.bit_writeSpan]
  · omega

end Sys2Proof.Machine
end

section
/-! A span or bit written and then read, one bit as a span, and operands that change nothing (R113). -/

namespace Sys2Proof.Machine

/-- R142: a command that ended `OK` passed its argument check, and the gate if it is write-class. -/
theorem checks_of_ok {i : Instr} {s t : State} (h : exec i s = .next t) (hok : t.resp.code = .ok) :
    argumentCheck s i = none ∧ ∀ d, writeTarget i = some d → (s.window d).mutable = true := by
  have harg : argumentCheck s i = none := by
    by_contra hne
    obtain rfl := eq_of_next ((exec_of_argumentCheck_ne_none hne).symm.trans h)
    cases hok
  refine ⟨harg, fun d hd => ?_⟩
  cases hmut : (s.window d).mutable with
  | true => rfl
  | false =>
    obtain rfl := eq_of_next ((exec_of_immutable_target hd hmut harg).symm.trans h)
    cases hok

/-! ## Written with SET, read back -/

/-- The span just written with SET reads as the value, masked to its length. -/
theorem State.readSpan_writeSpan_set (s : State) (a len : Nat) (v : Word) :
    (s.writeSpan .set a len v).readSpan a len = v &&& maskOf len := by
  refine word_ext _ _ fun j hj => ?_
  rw [State.getLsbD_readSpan, getLsbD_and_maskOf _ _ hj, decide_eq_true hj, Bool.true_and, Bool.and_comm]
  by_cases hlen : j < len
  · rw [State.bit_writeSpan, if_pos (by omega), comb, Nat.add_sub_cancel_left]
  · rw [decide_eq_false hlen, Bool.and_false, Bool.and_false]

theorem getbits_after_wbitsSet {d : Fin 16} {a : Int} {len : Nat} {v : Word} {s t : State} (hinv : s.inv)
    (h : exec (.wbitsSet d a len v) s = .next t) (hok : t.resp.code = .ok) :
    exec (.getbits d a len) t = .next (t.done (v &&& maskOf len)) := by
  obtain ⟨hc, hmut⟩ := checks_of_ok h hok
  have hinv' := exec_keeps_inv hinv h
  obtain rfl := eq_of_next ((spanCommand_of_span hinv hc (hmut d rfl)).symm.trans h)
  rw [← s.readSpan_writeSpan_set ((s.window d).abs a)]
  exact execGetbits_of_span hinv' hc

theorem getbit_after_wbitSet {d : Fin 16} {a : Int} {b : Bool} {s t : State}
    (h : exec (.wbitSet d a b) s = .next t) (hok : t.resp.code = .ok) :
    exec (.getbit d a) t = .next (t.done (wordOfBit b)) := by
  obtain ⟨h0, h1⟩ := (indexCheck_eq_none ..).1 (checks_of_ok h hok).1
  exact getbit_after_wbit h hok h0 h1 rfl

/-! ## A bit is a span of length 1 -/

theorem spanCheck_one (sz a : Int) : spanCheck sz a 1 = indexCheck sz a := by
  have hend : a + ((1 : Nat) : Int) > sz ↔ a ≥ sz := by omega
  rw [spanCheck, indexCheck, if_neg (by omega), if_congr hend rfl rfl]

theorem State.writeSpan_one (s : State) (k : Kind) (a : Nat) (b : Bool) :
    s.writeSpan k a 1 (wordOfBit b) = s.writeBit k a b := by
  refine s.putBits_congr _ _ _ _ fun x h0 h1 => ?_
  rw [getLsbD_wordOfBit, decide_eq_true (by omega), Bool.true_and]

theorem spanCommand_one (k : Kind) (d : Fin 16) (a : Int) (b : Bool) (s : State) :
    spanCommand k d a 1 (wordOfBit b) s = bitCommand k d a b s := by
  rw [spanCommand, bitCommand, spanCheck_one, State.writeSpan_one]

/-! ## Neutral operands -/

/-- A span write whose value is neutral for its kind on every bit changes no word. -/
theorem spanCommand_sameWords {k : Kind} {d : Fin 16} {a : Int} {len : Nat} {v : Word} {s t : State}
    (hv : ∀ j < 64, ∀ old, comb k old (v.getLsbD j) = old) (h : spanCommand k d a len v s = .next t) :
    s.sameWords t := by
  rw [spanCommand, State.checked_firstFailure] at h
  obtain ⟨c, -, rfl⟩ | ⟨hc, h⟩ := State.checked_next _ _ _ _ h
  · exact s.raise_word c
  obtain ⟨c, -, rfl⟩ | ⟨-, h⟩ := State.checked_next _ _ _ _ h
  · exact s.raise_word c
  obtain rfl := eq_of_next (State.within_next _ _ _ _ _ h).2
  have hlen := ((spanCheck_eq_none ..).1 hc).1
  refine State.word_eq_of_bit_eq _ _ fun x => ?_
  rw [State.done_bit, State.bit_writeSpan]
  split
  · rw [hv _ (by omega)]
  · rfl

/-- Settles O40: the written span or bit is read at the offset it was written at; a bit passes the check and has the
effect of a span of length 1; all ones are neutral for AND, zeros for OR and XOR. -/
theorem spanWriteLaws : Obligations.SpanWriteLaws := by
  refine ⟨fun _ _ _ _ _ _ => getbits_after_wbitsSet, fun _ _ _ _ _ _ => getbit_after_wbitSet,
    fun k d a b s => ?one, fun d a len s t h => ?neutral⟩
  case one => rw [exec_wbit, exec_wbits, spanCommand_one]
  case neutral =>
    have hzero : ∀ j, (0 : Word).getLsbD j = false := fun _ => BitVec.getLsbD_zero
    rcases h with hand | hor | hxor
    · exact spanCommand_sameWords (fun j hj old => by rw [getLsbD_ones, decide_eq_true hj, comb, Bool.and_true]) hand
    · exact spanCommand_sameWords (fun j _ old => by rw [hzero, comb, Bool.or_false]) hor
    · exact spanCommand_sameWords (fun j _ old => by rw [hzero, comb, Bool.xor_false]) hxor

end Sys2Proof.Machine
end

section
/-! Through a view made by `DVIEW`: index `i` of the view is index `a + i` of its source (R113). -/

namespace Sys2Proof.Machine

/-- The view of the range `[a, c)` of a window (R72). -/
def Descriptor.view (w : Descriptor) (a c : Int) : Descriptor := ⟨w.abs a, w.abs c, w.mutable⟩

section
variable {w : Descriptor} {a c i : Int} (h0 : 0 ≤ a) (hac : a ≤ c)
include h0

theorem Descriptor.abs_view : (w.view a c).abs i = w.abs (a + i) := by
  rw [Descriptor.view, Descriptor.abs, Descriptor.natCast_abs h0, Descriptor.abs, Int.add_assoc]

include hac in
theorem Descriptor.size_view : (w.view a c).size = c - a := by
  rw [Descriptor.view, Descriptor.size, Descriptor.natCast_abs h0, Descriptor.natCast_abs (h0.trans hac)]
  omega

variable (hc : c ≤ w.size) (hi0 : 0 ≤ i)
include hac hc hi0

/-- An index of the view is an index of the source. -/
theorem indexCheck_view (hi1 : i < c - a) :
    indexCheck (w.view a c).size i = indexCheck w.size (a + i) := by
  rw [Descriptor.size_view h0 hac, (indexCheck_eq_none ..).2 ⟨hi0, hi1⟩, (indexCheck_eq_none ..).2 (by omega)]

/-- A span that ends inside the view fails its check there and in the source only by its length. -/
theorem spanCheck_view {len : Nat} (hend : i + len ≤ c - a) :
    spanCheck (w.view a c).size i len = spanCheck w.size (a + i) len := by
  rw [Descriptor.size_view h0 hac]
  by_cases hlen : len ≤ 64
  · rw [(spanCheck_eq_none ..).2 ⟨hlen, hi0, hend⟩, (spanCheck_eq_none ..).2 ⟨hlen, by omega⟩]
  · rw [spanCheck, spanCheck, if_pos (by omega), if_pos (by omega)]

end

/-- R72: a `DVIEW` that ended `OK` had a range of its source, and leaves the view and, in another descriptor, the
source. -/
theorem windows_of_dview {v r : Fin 16} {a c : Int} {s t : State} (hne : v ≠ r)
    (h : exec (.dview v r a c) s = .next t) (hok : t.resp.code = .ok) :
    (0 ≤ a ∧ a ≤ c ∧ c ≤ (t.window r).size) ∧ t.window v = (t.window r).view a c := by
  obtain ⟨h0, hac, hc⟩ := (rangeCheck_eq_none ..).1 (checks_of_ok h hok).1
  obtain rfl := eq_of_next ((execDview_of_range h0 hac hc).symm.trans h)
  rw [State.setWindow_done_window_self, (s.setWindow_done_frame v _).1 r hne.symm]
  exact ⟨⟨h0, hac, hc⟩, rfl⟩

/-- Settles O41: an index or span of the view passes the same checks as that of the source, and has the same offset. -/
theorem viewTransparency : Obligations.ViewTransparency := by
  intro v r a c i s t hne h hok hi0 hi1
  obtain ⟨⟨h0, hac, hc⟩, hview⟩ := windows_of_dview hne h hok
  have hindex := indexCheck_view h0 hac hc hi0 hi1
  have hgate : gate ((t.window r).view a c) = gate (t.window r) := rfl
  refine ⟨fun k b => ?wbit, ?getbit, fun k len x hend => ⟨?wbits, ?getbits⟩⟩
  case wbit => simp only [exec_wbit, bitCommand, hview, hindex, hgate, Descriptor.abs_view h0]
  case getbit => simp only [exec, execGetbit, hview, hindex, Descriptor.abs_view h0]
  case wbits =>
    simp only [exec_wbits, spanCommand, hview, spanCheck_view h0 hac hc hi0 hend, hgate, Descriptor.abs_view h0]
  case getbits => simp only [exec, execGetbits, hview, spanCheck_view h0 hac hc hi0 hend, Descriptor.abs_view h0]

end Sys2Proof.Machine
end

section
/-! `WSTORE.k` of a short source as a read and a span write, and what is read from a copy (R136). -/

namespace Sys2Proof.Machine

/-! ## A source of at most 64 bits -/

/-- The source's bits, read as one span, are written where the store would write them. -/
theorem State.transfer_eq_writeSpan (s : State) (k : Kind) (src dst : Nat) {n : Nat} (hn : n ≤ 64) :
    s.transfer k src dst n = s.writeSpan k dst n (s.readSpan src n) := by
  refine s.putBits_congr _ _ _ _ fun x h0 h1 => ?_
  rw [State.getLsbD_readSpan, decide_eq_true (by omega), decide_eq_true (by omega), Bool.true_and, Bool.true_and]

/-- A source of at most 64 bits fits where a span of its length does. -/
theorem storeCheck_eq_spanCheck (sz a : Int) {n : Nat} (hn : n ≤ 64) : storeCheck sz n a = spanCheck sz a n := by
  rw [storeCheck, spanCheck, if_neg (Nat.not_lt.2 hn)]

theorem storeCommand_eq_spanCommand {k : Kind} {d r : Fin 16} {a : Int} {s : State} (hinv : s.inv)
    (hn : (s.window r).count ≤ 64) :
    storeCommand k d r a s =
      spanCommand k d a (s.window r).count (s.readSpan (s.window r).start (s.window r).count) s := by
  rw [storeCommand, spanCommand, Descriptor.size_of_le _ (s.inv_start_le hinv r), storeCheck_eq_spanCheck _ _ hn,
    State.within_of_le _ _ _ _ (.inr (State.inv_source_le hinv r)), State.transfer_eq_writeSpan _ _ _ _ hn]

/-- `GETBITS` of a whole window of at most 64 bits answers all its bits. -/
theorem execGetbits_whole {r : Fin 16} {s : State} (hinv : s.inv) (hn : (s.window r).count ≤ 64) :
    execGetbits r 0 (s.window r).count s =
      .next (s.done (s.readSpan (s.window r).start (s.window r).count)) := by
  have hsize := Descriptor.size_of_le _ (s.inv_start_le hinv r)
  rw [execGetbits_of_span hinv ((spanCheck_eq_none ..).2 ⟨hn, le_rfl, by omega⟩), Descriptor.abs_zero]

/-! ## A copy -/

/-- A span of the bits copied with SET reads as the source's span read before. -/
theorem State.readSpan_transfer_set (s : State) (src dst : Nat) {n j m : Nat} (h : j + m ≤ n) :
    (s.transfer .set src dst n).readSpan (dst + j) m = s.readSpan (src + j) m := by
  refine word_ext _ _ fun i _ => ?_
  rw [State.getLsbD_readSpan, State.getLsbD_readSpan]
  by_cases hi : i < m
  · have hoff : src + (dst + j + i - dst) = src + j + i := by omega
    rw [State.bit_transfer, if_pos (by omega), comb, hoff]
  · rw [decide_eq_false hi, Bool.false_and, Bool.false_and]

/-- The span `j` of a window `u` copied with SET to position `a` of a window `w` is the span `a + j` of `w`. -/
theorem State.readSpan_copy {s : State} {w u : Descriptor} {a j : Int} {m : Nat} (ha : 0 ≤ a)
    (hspan : spanCheck u.size j m = none) :
    (s.transfer .set u.start (w.abs a) u.count).readSpan (w.abs (a + j)) m = s.readSpan (u.abs j) m := by
  obtain ⟨-, hj, hend⟩ := (spanCheck_eq_none ..).1 hspan
  have hdst : w.abs (a + j) = w.abs a + j.toNat := by
    unfold Descriptor.abs; omega
  have hin : j.toNat + m ≤ u.count := by
    unfold Descriptor.size at hend; unfold Descriptor.count; omega
  rw [hdst, Descriptor.abs_of_nonneg _ _ hj, s.readSpan_transfer_set _ _ hin]

theorem getbits_after_wstoreSet {d r : Fin 16} {a j : Int} {m : Nat} {s t g : State} (hinv : s.inv)
    (h : exec (.wstoreSet d r a) s = .next t) (hok : t.resp.code = .ok)
    (hg : exec (.getbits r j m) s = .next g) (hgok : g.resp.code = .ok) :
    exec (.getbits d (a + j) m) t = .next { t with resp := g.resp } := by
  obtain ⟨hstore, hmut⟩ := checks_of_ok h hok
  have hspan := (checks_of_ok hg hgok).1
  have hinv' := exec_keeps_inv hinv h
  obtain rfl := eq_of_next ((storeCommand_of_store hinv hstore (hmut d rfl)).symm.trans h)
  obtain rfl := eq_of_next ((execGetbits_of_span hinv hspan).symm.trans hg)
  obtain ⟨ha, hfit⟩ := (storeCheck_eq_none ..).1 hstore
  obtain ⟨hm, hj, hend⟩ := (spanCheck_eq_none ..).1 hspan
  have hcheck : spanCheck (s.window d).size (a + j) m = none := (spanCheck_eq_none ..).2 ⟨hm, by omega⟩
  change _ = Host.Outcome.next (State.done _ (s.readSpan ((s.window r).abs j) m))
  rw [← State.readSpan_copy ha hspan]
  exact execGetbits_of_span hinv' hcheck

/-- Settles O47: a short source is the span `GETBITS` answers, checked and written as `WBITS.k` does; a copy has the
source's bits as they were before the command. -/
theorem wstoreLaws : Obligations.WstoreLaws := by
  refine ⟨fun k d r a s g hinv hn hg => ?short, fun _ _ _ _ _ _ _ _ => getbits_after_wstoreSet⟩
  case short =>
    obtain rfl := eq_of_next ((execGetbits_whole hinv hn).symm.trans hg)
    rw [exec_wstore, exec_wbits, storeCommand_eq_spanCommand hinv hn]
    rfl

end Sys2Proof.Machine
end
